-- ==== Sys2Proof/Word.lean ====
section
/-! DEFINITION. The word types of the block's ports and of VRAM. -/

namespace Sys2Proof

/-- One VRAM byte (spec/20_memory.md R40). -/
abbrev Byte := BitVec 8

/-- A 32-bit operand or result word (spec/00_scope.md R10). -/
abbrev Word := BitVec 32

/-- A command word CMD, 168 bits (spec/30_encoding.md R60). -/
abbrev CmdWord := BitVec 168

/-- A response word RSP, 144 bits (spec/30_encoding.md R63). -/
abbrev RspWord := BitVec 144

end Sys2Proof
end

