-- ==== Sys2Proof/Syntax.lean ====
section
/-! DEFINITION. The commands of the block: one constructor per row of spec/opcode_table.json, with the CMD fields the command
reads and no others (spec/30_encoding.md R65, R66). -/

namespace Sys2Proof

/-- A command (spec/30_encoding.md R65). Coordinates are 32-bit two's-complement words and a value is a 32-bit unsigned word
(spec/00_scope.md R10). -/
inductive Instr where
  /-- INFO, OP 0x00 (R101). -/
  | info
  /-- LOCATE x, y, OP 0x01 (R102). -/
  | locate (x y : Word)
  /-- GETPX x, y, OP 0x02 (R103). -/
  | getpx (x y : Word)
  /-- SETPX x, y, value, OP 0x03 (R104). -/
  | setpx (x y value : Word)
  /-- FILL x0, y0, x1, y1, value, OP 0x04 (R105). -/
  | fill (x0 y0 x1 y1 value : Word)
  /-- MARK x0, y0, x1, y1, OP 0x05 (R106). -/
  | mark (x0 y0 x1 y1 : Word)
  /-- CLRDIRTY, OP 0x06 (R107). -/
  | clrdirty
  /-- GETDIRTY, OP 0x07 (R108). -/
  | getdirty
  /-- RESET, OP 0x08 (R109). -/
  | reset
  /-- A reserved op code, 0x09 to 0xFF (R110); the row "(reserved)" of the table. -/
  | reserved (op : Byte)
  deriving DecidableEq, Repr

end Sys2Proof
end

