-- ==== Sys2Proof/WellFormed.lean ====
section
/-! DEFINITION. Which terms of `Instr` stand for a command word. -/

namespace Sys2Proof

/-- The operand fields admit every 32-bit word (spec/30_encoding.md R66), so the one check is that a reserved op code is one
the table leaves unassigned, 0x09 to 0xFF (R67). -/
def Instr.wellFormed : Instr → Bool
  | .info => true
  | .locate _ _ => true
  | .getpx _ _ => true
  | .setpx _ _ _ => true
  | .fill _ _ _ _ _ => true
  | .mark _ _ _ _ => true
  | .clrdirty => true
  | .getdirty => true
  | .reset => true
  | .reserved op => decide (9 ≤ op.toNat)

end Sys2Proof
end

