-- ==== Sys2Proof/Decode.lean ====
section
/-! DEFINITION. The command decoder and encoder (spec/30_encoding.md R60, R61, R65, R66, R68). -/

namespace Sys2Proof

/-- CMD field OP, bits 7:0 (R60). -/
def CmdWord.op (w : CmdWord) : Byte := w.extractLsb' 0 8

/-- CMD field A, bits 39:8 (R60). -/
def CmdWord.a (w : CmdWord) : Word := w.extractLsb' 8 32

/-- CMD field B, bits 71:40 (R60). -/
def CmdWord.b (w : CmdWord) : Word := w.extractLsb' 40 32

/-- CMD field C, bits 103:72 (R60). -/
def CmdWord.c (w : CmdWord) : Word := w.extractLsb' 72 32

/-- CMD field D, bits 135:104 (R60). -/
def CmdWord.d (w : CmdWord) : Word := w.extractLsb' 104 32

/-- CMD field V, bits 167:136 (R60). -/
def CmdWord.v (w : CmdWord) : Word := w.extractLsb' 136 32

/-- The CMD word with these six fields (R60). -/
def CmdWord.ofFields (op : Byte) (a b c d v : Word) : CmdWord := v ++ d ++ c ++ b ++ a ++ op

/-- The op-code map (R65): all 8 bits of OP select the command, and a command reads only the fields it uses (R66). Every
168-bit word is a command. -/
def decode (w : CmdWord) : Instr :=
  match (CmdWord.op w).toNat with
  | 0 => .info
  | 1 => .locate (CmdWord.a w) (CmdWord.b w)
  | 2 => .getpx (CmdWord.a w) (CmdWord.b w)
  | 3 => .setpx (CmdWord.a w) (CmdWord.b w) (CmdWord.v w)
  | 4 => .fill (CmdWord.a w) (CmdWord.b w) (CmdWord.c w) (CmdWord.d w) (CmdWord.v w)
  | 5 => .mark (CmdWord.a w) (CmdWord.b w) (CmdWord.c w) (CmdWord.d w)
  | 6 => .clrdirty
  | 7 => .getdirty
  | 8 => .reset
  | _ + 9 => .reserved (CmdWord.op w)

/-- Why a byte string is no command. -/
inductive DecodeError where
  /-- The byte string ends before the 21 bytes of a CMD word (R61, R68). -/
  | truncated
  deriving DecidableEq, Repr

/-- The word whose byte `k` is the list's element `k`, least significant byte first (R61), and the bytes after it. -/
def takeWord : (n : Nat) → List Byte → Except DecodeError (BitVec (8 * n) × List Byte)
  | 0, bs => .ok (0#0, bs)
  | _ + 1, [] => .error .truncated
  | n + 1, b :: bs =>
    match takeWord n bs with
    | .ok (hi, rest) => .ok (hi ++ b, rest)
    | .error e => .error e

/-- The bytes of a word on a byte-wide link, least significant byte first (R61). -/
def bytesOf : (n : Nat) → BitVec (8 * n) → List Byte
  | 0, _ => []
  | n + 1, w => w.extractLsb' 0 8 :: bytesOf n (w.extractLsb' 8 (8 * n))

/-- The command at the head of a byte string and the bytes after it (R61, R68). -/
def decodeBytes (bs : List Byte) : Except DecodeError (Instr × List Byte) :=
  match takeWord 21 bs with
  | .ok (w, rest) => .ok (decode w, rest)
  | .error e => .error e

/-- The op code of a command (R65). -/
def Instr.opcode : Instr → Byte
  | .info => 0x00
  | .locate _ _ => 0x01
  | .getpx _ _ => 0x02
  | .setpx _ _ _ => 0x03
  | .fill _ _ _ _ _ => 0x04
  | .mark _ _ _ _ => 0x05
  | .clrdirty => 0x06
  | .getdirty => 0x07
  | .reset => 0x08
  | .reserved op => op

/-- The CMD word of a command (R60, R65), with 0 in every field the command does not use. -/
def encode (i : Instr) : CmdWord :=
  match i with
  | .info => .ofFields i.opcode 0 0 0 0 0
  | .locate x y => .ofFields i.opcode x y 0 0 0
  | .getpx x y => .ofFields i.opcode x y 0 0 0
  | .setpx x y value => .ofFields i.opcode x y 0 0 value
  | .fill x0 y0 x1 y1 value => .ofFields i.opcode x0 y0 x1 y1 value
  | .mark x0 y0 x1 y1 => .ofFields i.opcode x0 y0 x1 y1 0
  | .clrdirty => .ofFields i.opcode 0 0 0 0 0
  | .getdirty => .ofFields i.opcode 0 0 0 0 0
  | .reset => .ofFields i.opcode 0 0 0 0 0
  | .reserved _ => .ofFields i.opcode 0 0 0 0 0

/-- A command on a byte-wide link: its 21 bytes (R61). -/
def encodeBytes (i : Instr) : List Byte := bytesOf 21 (encode i)

/-- The CMD word whose low `nbits` bits are `w`'s and whose other bits are 0. -/
def tableWord (nbits w : Nat) : CmdWord := BitVec.ofNat 168 (w % 2 ^ nbits)

/-- What the decoder reads from an instruction whose bits are `w`, numbered as spec/opcode_table.json numbers them. -/
def decodeTableWord (nbits w : Nat) : Option Instr :=
  match decodeBytes (bytesOf 21 (tableWord nbits w)) with
  | .ok (i, _) => some i
  | .error _ => none

end Sys2Proof
end

