-- ==== Sys2Proof/Config.lean ====
section
/-! DEFINITION. What an instance of the block is elaborated with: its pixel format and its dimensions
(spec/00_scope.md R2, R5, R6, R7, R9). The spec leaves no value open, so there is no free value here. -/

namespace Sys2Proof

/-- The three pixel formats (spec/00_scope.md R2, R5). -/
inductive PixelFormat where
  | packedNibble
  | packedBit
  | rgb24
  deriving DecidableEq, Repr

/-- The elaboration parameters of one instance: FORMAT (R5), PW and PH (R6), VW and VH (R7), COLOR_DEPTH (R9). They are
constants of the instance (spec/10_state.md R21). Which parameter sets are legal says `Params.legal` (R11). -/
structure Params where
  format : PixelFormat
  pw : Nat
  ph : Nat
  vw : Nat
  vh : Nat
  colorDepth : Word
  deriving DecidableEq, Repr

/-- A parameter set as a designer writes it down, before elaboration has checked it: a format code (spec/30_encoding.md R62),
dimensions that may be zero or negative (R11, R133), and a color depth that may be left to its default (R9). -/
structure RawParams where
  formatCode : Nat
  pw : Int
  ph : Int
  vw : Int
  vh : Int
  colorDepth : Option Word
  deriving DecidableEq, Repr

end Sys2Proof
end

