-- ==== Sys2Proof/Machine/State.lean ====
section
/-! DEFINITION. The state of the block: VRAM, the dirty-region register, the constants of the instance, and its command port
with what the host drives on it (spec/10_state.md, spec/70_reset_and_hazards.md R150, R161). -/

namespace Sys2Proof.Machine

/-- VRAM as the bytes that differ from what an unlisted address reads as, addresses rising (spec/10_state.md R22). -/
abbrev Memory := List Host.Cell

/-- What an unlisted VRAM byte reads as: the power-on contents, "VRAM[i] ... 0" (spec/70_reset_and_hazards.md R150). -/
abbrev Memory.powerOnByte : Byte := 0

/-- The canonical form: addresses strictly rising, no entry that equals the power-on byte. -/
abbrev Memory.wf (m : Memory) : Prop :=
  m.Pairwise (fun c d => c.1 < d.1) ∧ ∀ c ∈ m, c.2 ≠ Memory.powerOnByte

/-- The dirty-region register and its five fields, DIRTY_VALID and the four 32-bit signed coordinates (spec/10_state.md R23). -/
structure DirtyReg where
  valid : Bool
  x0 : Word
  y0 : Word
  x1 : Word
  y1 : Word
  deriving DecidableEq, Repr

/-- `Empty`: DIRTY_VALID 0 and the coordinate fields 0 (spec/10_state.md R23). -/
def DirtyReg.empty : DirtyReg := { valid := false, x0 := 0, y0 := 0, x1 := 0, y1 := 0 }

/-- `Rect(0, 0, VW-1, VH-1)`, the fully dirty viewport (spec/10_state.md R23, spec/70_reset_and_hazards.md R150). -/
def DirtyReg.fullViewport (p : Params) : DirtyReg :=
  { valid := true, x0 := 0, y0 := 0, x1 := BitVec.ofNat 32 (p.vw - 1), y1 := BitVec.ofNat 32 (p.vh - 1) }

/-- The status codes a response can carry (spec/30_encoding.md R64). Code 3 is reserved and never produced. -/
inductive Status where
  | ok
  | boundsError
  | illegalOp
  deriving DecidableEq, Repr

/-- A response by its fields (spec/30_encoding.md R63). Its 144-bit word is `Response.word`. -/
structure Response where
  status : Status
  flag : Bool
  r0 : Word
  r1 : Word
  r2 : Word
  r3 : Word
  deriving DecidableEq, Repr

/-- What the host drives on the `rst` and `rsp_ready` inputs during one step (spec/70_reset_and_hazards.md R161). -/
structure Pins where
  rst : Bool
  rspReady : Bool
  deriving DecidableEq, Repr

/-- The whole state. `params` are the constants of the instance (R21, R150); `vram` and `dirty` are the state of R20. `rsp` is
the port's output side: `some r` is `rsp_valid` with `rsp_data` holding `r` (R161). `offered` and `pins` are the outside's:
the commands the host offers on `cmd_valid` and `cmd_data`, the one offered now first, each held until it is accepted (R161);
and what it drives on `rst` and `rsp_ready` at this and the following steps (assumption 2). -/
structure State where
  params : Params
  vram : Memory
  dirty : DirtyReg
  rsp : Option Response
  offered : List CmdWord
  pins : List Pins
  deriving DecidableEq, Repr

/-- Why the machine stops. -/
inductive Fault where
  /-- An access to a VRAM byte offset that is not in `0 .. VRAM_SIZE-1` (spec/20_memory.md R40). Raised by the byte accesses
  of Ops.lean. Safe: it stops, and with legal parameters no command reaches it (R45). -/
  | outsideVram (addr : Nat)
  deriving DecidableEq, Repr

/-- Why the machine gives no meaning. -/
inductive Refusal where
  /-- An instruction that has no meaning yet. Raised by no arm of exec. Safe. -/
  | notModelled (mnemonic : String)
  /-- The parameter set is not legal, so there is no instance and no command is ever accepted (spec/60_exceptions.md R133,
  spec/93_implementation_defined.md U7). Raised by step. Safe. -/
  | illegalParameters
  deriving DecidableEq, Repr

/-- Why a command stops short: the spec's `raise BoundsError` (spec/00_scope.md R12), or a fault of the machine. -/
inductive Abort where
  | boundsError
  | fault (f : Fault)
  deriving DecidableEq, Repr

/-- The outcome of a step or of a meaning. -/
abbrev Outcome := Host.Outcome State Fault Refusal

/-- The state with other VRAM contents. -/
def State.withVram (s : State) (m : Memory) : State := { s with vram := m }

/-- The state with another dirty-region register. -/
def State.withDirty (s : State) (d : DirtyReg) : State := { s with dirty := d }

/-- The state with another port output. -/
def State.withRsp (s : State) (r : Option Response) : State := { s with rsp := r }

/-- The state with other commands offered. -/
def State.withOffered (s : State) (ws : List CmdWord) : State := { s with offered := ws }

/-- The state with another drive of the input pins. -/
def State.withPins (s : State) (ps : List Pins) : State := { s with pins := ps }

/-- The power-on state of the instance with parameters `p`, the port idle and the host silent (spec/70_reset_and_hazards.md
R150). -/
def State.powerOn (p : Params) : State :=
  { params := p, vram := [], dirty := DirtyReg.fullViewport p, rsp := none, offered := [], pins := [] }

/-- The instance of the spec's example P1: PackedNibble, PW = VW = 256, PH = VH = 64, COLOR_DEPTH = 4 (DESIGN CHOICE,
assumption 1). -/
def Params.example256x64 : Params :=
  { format := .packedNibble, pw := 256, ph := 64, vw := 256, vh := 64, colorDepth := 4 }

/-- The machine right after reset (spec/70_reset_and_hazards.md R150), for the instance of assumption 1. -/
def State.reset : State := State.powerOn Params.example256x64

end Sys2Proof.Machine
end

