-- ==== Sys2Proof/Machine/Geometry.lean ====
section
/-! DEFINITION. The constants derived from the elaboration parameters, which parameter sets are legal, and elaboration
(spec/00_scope.md R5, R8, R9, R11; spec/30_encoding.md R62; spec/60_exceptions.md R133). -/

namespace Sys2Proof.Machine

/-- BPP, bits per pixel (R5). -/
def bitsPerPixel : PixelFormat → Nat
  | .packedNibble => 4
  | .packedBit => 1
  | .rgb24 => 24

/-- FIELD_MASK = 2^BPP - 1 (R5). -/
def fieldMask : PixelFormat → Word
  | .packedNibble => 0xF
  | .packedBit => 0x1
  | .rgb24 => 0xFFFFFF

/-- The format code INFO reports and FORMAT is given as (R62). -/
def formatCode : PixelFormat → Nat
  | .packedNibble => 0
  | .packedBit => 1
  | .rgb24 => 2

/-- The format of a code; code 3 is reserved, and there are no others (R62). -/
def formatOfCode : Nat → Option PixelFormat
  | 0 => some .packedNibble
  | 1 => some .packedBit
  | 2 => some .rgb24
  | _ + 3 => none

/-- STRIDE = ceil(PW * BPP / 8), the VRAM bytes of one plane row (R8). -/
def Params.stride (p : Params) : Nat := (p.pw * bitsPerPixel p.format + 7) / 8

/-- VRAM_SIZE = STRIDE * PH (R8). -/
def Params.vramSize (p : Params) : Nat := Params.stride p * p.ph

/-- The legal parameter sets (R11). That FORMAT is one of the three formats is its type. -/
abbrev Params.legal (p : Params) : Prop :=
  1 ≤ p.pw ∧ 1 ≤ p.ph ∧ 1 ≤ p.vw ∧ p.vw ≤ p.pw ∧ 1 ≤ p.vh ∧ p.vh ≤ p.ph ∧
    p.pw ≤ 2 ^ 31 - 1 ∧ p.ph ≤ 2 ^ 31 - 1 ∧ Params.vramSize p ≤ 2 ^ 32

/-- The one error of elaboration (R133). -/
inductive ElaborationError where
  /-- InvalidDimensions: a parameter set that breaks R11. -/
  | invalidDimensions
  deriving DecidableEq, Repr

/-- The parameters a raw set stands for, COLOR_DEPTH defaulting to BPP(FORMAT) (R9); none for a dimension that is negative or a
reserved format code. -/
def RawParams.checked (r : RawParams) : Option Params :=
  match formatOfCode r.formatCode with
  | none => none
  | some f =>
    if 0 ≤ r.pw ∧ 0 ≤ r.ph ∧ 0 ≤ r.vw ∧ 0 ≤ r.vh then
      some { format := f, pw := r.pw.toNat, ph := r.ph.toNat, vw := r.vw.toNat, vh := r.vh.toNat,
             colorDepth := r.colorDepth.getD (BitVec.ofNat 32 (bitsPerPixel f)) }
    else none

/-- Elaboration (R133): a legal set gives the power-on state of its instance (R150), and an illegal one gives no block. -/
def elaborate (r : RawParams) : Except ElaborationError State :=
  match RawParams.checked r with
  | none => .error .invalidDimensions
  | some p => if Params.legal p then .ok (State.powerOn p) else .error .invalidDimensions

end Sys2Proof.Machine
end

