-- ==== Sys2Proof/Machine/Operands.lean ====
section
/-! DEFINITION. Operand decoding and the tests on operands that the commands share (spec/30_encoding.md R66,
spec/40_pixelplane.md R80, R82, spec/41_displaymemory.md R105). -/

namespace Sys2Proof.Machine

/-- `sint32(w)`: a coordinate field as a mathematical integer (spec/00_scope.md R12, spec/30_encoding.md R66). -/
def coord (w : Word) : Int := w.toInt

/-- `u32(n)`: the word of a number below 2^32 (spec/00_scope.md R12). -/
def u32 (n : Nat) : Word := BitVec.ofNat 32 n

/-- `trunc(value) = value & FIELD_MASK` (R82). -/
def trunc (f : PixelFormat) (value : Word) : Word := value &&& fieldMask f

/-- The plane holds the pixel (x, y): the negation of the test of `locate` (R80). -/
abbrev inPlane (p : Params) (x y : Int) : Prop := 0 ≤ x ∧ x < p.pw ∧ 0 ≤ y ∧ y < p.ph

/-- `inViewport(x, y)` (spec/41_displaymemory.md, before R100). -/
abbrev inViewport (p : Params) (x y : Int) : Prop := 0 ≤ x ∧ x < p.vw ∧ 0 ≤ y ∧ y < p.vh

/-- The empty-rectangle test of a fill (R85, R105). -/
abbrev emptyRect (x0 y0 x1 y1 : Int) : Prop := x1 < x0 ∨ y1 < y0

end Sys2Proof.Machine
end

