-- ==== Sys2Proof/Machine/Flags.lean ====
section
/-! DEFINITION. The response's STATUS and FLAG and its 144-bit word. The block keeps no flags or condition codes
(spec/10_state.md R27); STATUS and FLAG go back to the host with the response (spec/30_encoding.md R63, R64). -/

namespace Sys2Proof.Machine

/-- The 2-bit status code (R64). -/
def Status.code : Status → BitVec 2
  | .ok => 0
  | .boundsError => 1
  | .illegalOp => 2

/-- The RSP word of a response (R63): STATUS in bits 1:0, FLAG in bit 8, R0 to R3 in bits 47:16, 79:48, 111:80 and 143:112, and
0 in bits 7:2 and 15:9. -/
def Response.word (r : Response) : RspWord :=
  r.r3 ++ r.r2 ++ r.r1 ++ r.r0 ++ (0#7) ++ BitVec.ofBool r.flag ++ (0#6) ++ Status.code r.status

/-- A response on a byte-wide link: its 18 bytes, least significant byte first (spec/30_encoding.md R61). -/
def Response.bytes (r : Response) : List Byte := bytesOf 18 (Response.word r)

/-- `respond(OK, flag, r0, r1, r2, r3)` (spec/00_scope.md R12). -/
def Response.okWith (flag : Bool) (r0 r1 r2 r3 : Word) : Response :=
  { status := .ok, flag := flag, r0 := r0, r1 := r1, r2 := r2, r3 := r3 }

/-- `respond(OK)`: an operand of respond that is left out is 0 (spec/00_scope.md R12). -/
def Response.okPlain : Response := Response.okWith false 0 0 0 0

/-- The response of an error: every result field is 0 when STATUS is not OK (R63). -/
def Response.error (st : Status) : Response := { status := st, flag := false, r0 := 0, r1 := 0, r2 := 0, r3 := 0 }

end Sys2Proof.Machine
end

