-- ==== Sys2Proof/Machine/Ops.lean ====
section
/-! DEFINITION. The named operations the commands share: VRAM bytes and multi-byte accesses, responding, and raising an error
(spec/00_scope.md R12, spec/20_memory.md R40, spec/41_displaymemory.md R100, spec/60_exceptions.md R130, R131). -/

namespace Sys2Proof.Machine

/-- The byte at an address; an unlisted address reads as the power-on byte. -/
def Memory.read : Memory → Nat → Byte
  | [], _ => Memory.powerOnByte
  | (a, b) :: m, k => if k = a then b else Memory.read m k

/-- A byte in front of cells that lie higher: no entry for the power-on byte. -/
def Memory.push (k : Nat) (v : Byte) (m : Memory) : Memory := if v = Memory.powerOnByte then m else (k, v) :: m

/-- The memory with one byte written, in canonical form. -/
def Memory.write : Memory → Nat → Byte → Memory
  | [], k, v => Memory.push k v []
  | (a, b) :: m, k, v =>
    if k < a then Memory.push k v ((a, b) :: m)
    else if k = a then Memory.push k v m
    else (a, b) :: Memory.write m k v

/-- `VRAM[i]` for `0 ≤ i < VRAM_SIZE` (spec/00_scope.md R12); no other address exists (spec/20_memory.md R40). -/
def readByte (p : Params) (m : Memory) (a : Nat) : Except Abort Byte :=
  if a < Params.vramSize p then .ok (Memory.read m a) else .error (.fault (.outsideVram a))

/-- `VRAM[i] <- b` for `0 ≤ i < VRAM_SIZE` (spec/00_scope.md R12, spec/20_memory.md R40). -/
def writeByte (p : Params) (m : Memory) (a : Nat) (b : Byte) : Except Abort Memory :=
  if a < Params.vramSize p then .ok (Memory.write m a b) else .error (.fault (.outsideVram a))

/-- `MemRead(a, n)`: n bytes as one number, the byte at the lowest offset the most significant (spec/00_scope.md R12,
spec/20_memory.md R43). -/
def memRead (p : Params) (m : Memory) (a : Nat) : (n : Nat) → Except Abort (BitVec (8 * n))
  | 0 => .ok (0#0)
  | n + 1 =>
    (memRead p m a n).bind fun hi =>
      (readByte p m (a + n)).bind fun lo => .ok (hi ++ lo)

/-- `MemWrite(a, n, v)`, the inverse of MemRead (spec/00_scope.md R12, spec/20_memory.md R43). -/
def memWrite (p : Params) (m : Memory) (a : Nat) : (n : Nat) → BitVec (8 * n) → Except Abort Memory
  | 0, _ => .ok m
  | n + 1, v =>
    (memWrite p m a n (v.extractLsb' 8 (8 * n))).bind fun m' => writeByte p m' (a + n) (v.extractLsb' 0 8)

/-- A command completes with its response on the port (spec/00_scope.md R12 `respond`, spec/70_reset_and_hazards.md R161). -/
def State.respond (s : State) (r : Response) : State := s.withRsp (some r)

/-- An error: the response carries the status with every result 0, and VRAM and DIRTY stay as they were before the command
(R130, R131, R137). -/
def State.raise (s : State) (st : Status) : State := s.respond (Response.error st)

/-- The end of a command that began in `s`: what it made, or, where it raised BoundsError, `s` itself with the error response,
so that every write it made is discarded (spec/41_displaymemory.md R100). -/
def complete (s : State) : Except Abort State → Outcome
  | .ok t => .next t
  | .error .boundsError => .next (s.raise .boundsError)
  | .error (.fault f) => .fault f

end Sys2Proof.Machine
end

