-- ==== Sys2Proof/Machine/DirtyRegion.lean ====
section
/-! DEFINITION. The dirty-region accumulator and the reset sequence (spec/41_displaymemory.md R120, R121,
spec/70_reset_and_hazards.md R151). -/

namespace Sys2Proof.Machine

/-- An inclusive rectangle (spec/00_scope.md R13). -/
structure Rect where
  x0 : Int
  y0 : Int
  x1 : Int
  y1 : Int
  deriving DecidableEq, Repr

/-- The pixel (x, y) lies in the rectangle (spec/00_scope.md R13). -/
abbrev Rect.contains (r : Rect) (x y : Int) : Prop := r.x0 ≤ x ∧ x ≤ r.x1 ∧ r.y0 ≤ y ∧ y ≤ r.y1

/-- The register's abstract value: `Empty` is none, `Rect` the four signed fields (spec/10_state.md R23). -/
def DirtyReg.region (d : DirtyReg) : Option Rect :=
  if d.valid then some { x0 := coord d.x0, y0 := coord d.y0, x1 := coord d.x1, y1 := coord d.y1 } else none

/-- The register holding a rectangle (spec/10_state.md R23). -/
def DirtyReg.ofRect (r : Rect) : DirtyReg :=
  { valid := true, x0 := BitVec.ofInt 32 r.x0, y0 := BitVec.ofInt 32 r.y0, x1 := BitVec.ofInt 32 r.x1,
    y1 := BitVec.ofInt 32 r.y1 }

/-- `clamp(v, lo, hi) = min(max(v, lo), hi)` (spec/00_scope.md R12). -/
def clamp (v lo hi : Int) : Int := min (max v lo) hi

/-- `clampRect(x0, y0, x1, y1)`: each axis ordered, then clamped to the viewport, on mathematical integers (R120). -/
def clampRect (p : Params) (x0 y0 x1 y1 : Int) : Rect :=
  { x0 := clamp (min x0 x1) 0 (p.vw - 1), y0 := clamp (min y0 y1) 0 (p.vh - 1),
    x1 := clamp (max x0 x1) 0 (p.vw - 1), y1 := clamp (max y0 y1) 0 (p.vh - 1) }

/-- The component-wise min and max of two rectangles (R121). -/
def Rect.union (r q : Rect) : Rect :=
  { x0 := min r.x0 q.x0, y0 := min r.y0 q.y0, x1 := max r.x1 q.x1, y1 := max r.y1 q.y1 }

/-- `markDirty(x0, y0, x1, y1)`: an empty region adopts the clamped rectangle, another is merged with it (R121). -/
def markDirty (p : Params) (d : DirtyReg) (x0 y0 x1 y1 : Int) : DirtyReg :=
  match d.region with
  | none => DirtyReg.ofRect (clampRect p x0 y0 x1 y1)
  | some r => DirtyReg.ofRect (r.union (clampRect p x0 y0 x1 y1))

/-- Every VRAM byte 0 (R151): in canonical form no entry stands for a 0. -/
def zeroFill : Memory := []

/-- `resetSequence()`: VRAM zeroed, DIRTY emptied, the whole viewport marked (R151). -/
def resetSequence (s : State) : State :=
  (s.withVram zeroFill).withDirty (markDirty s.params DirtyReg.empty 0 0 (s.params.vw - 1) (s.params.vh - 1))

end Sys2Proof.Machine
end

