-- ==== Sys2Proof/Machine/Control.lean ====
section
/-! DEFINITION. The commands on the dirty region and on the whole block, and the reserved op codes: MARK, CLRDIRTY, RESET,
reserved (spec/41_displaymemory.md R106, R107, R109, R110). -/

namespace Sys2Proof.Machine

/-- MARK: `markDirty(x0, y0, x1, y1)`, then OK (R106). -/
def execMark (x0 y0 x1 y1 : Word) (s : State) : Outcome :=
  complete s (.ok ((s.withDirty
    (markDirty s.params s.dirty (coord x0) (coord y0) (coord x1) (coord y1))).respond Response.okPlain))

/-- CLRDIRTY: `DIRTY <- Empty`, then OK (R107). -/
def execClrdirty (s : State) : Outcome :=
  complete s (.ok ((s.withDirty DirtyReg.empty).respond Response.okPlain))

/-- RESET: the reset sequence, then OK (R109). -/
def execReset (s : State) : Outcome :=
  complete s (.ok ((resetSequence s).respond Response.okPlain))

/-- A reserved op code: ILLEGAL_OP, whatever the op code and the other fields (R110, spec/60_exceptions.md R131). -/
def execReserved (_op : Byte) (s : State) : Outcome :=
  complete s (.ok (s.raise .illegalOp))

end Sys2Proof.Machine
end

