-- ==== Sys2Proof/Machine/PixelPlane.lean ====
section
/-! DEFINITION. PixelPlane, the bit-packer and unpacker (spec/40_pixelplane.md R80 to R88, spec/20_memory.md R41 to R45). Every
function depends on its operands, the instance's constants and the bytes of `buf` alone (R88). -/

namespace Sys2Proof.Machine

/-- The result of `locate`: the VRAM byte that holds the pixel and the pixel's position within it (R80). -/
structure Located where
  byteOffset : Nat
  subIndex : Nat
  deriving DecidableEq, Repr

/-- The layout: row by row, each row padded to whole bytes, x increasing within a row (spec/20_memory.md R41). -/
def layout (p : Params) (x y : Nat) : Located :=
  match p.format with
  | .packedNibble => { byteOffset := y * Params.stride p + x / 2, subIndex := x % 2 }
  | .packedBit => { byteOffset := y * Params.stride p + x / 8, subIndex := x % 8 }
  | .rgb24 => { byteOffset := y * Params.stride p + 3 * x, subIndex := 0 }

/-- `locate(x, y)`: BoundsError outside the plane (R80). -/
def locate (p : Params) (x y : Int) : Except Abort Located :=
  if x < 0 ∨ (p.pw : Int) ≤ x ∨ y < 0 ∨ (p.ph : Int) ≤ y then .error .boundsError
  else .ok (layout p x.toNat y.toNat)

/-- `shift(subIndex)` (R81, spec/20_memory.md R42). -/
def shift (f : PixelFormat) (sub : Nat) : Nat :=
  match f with
  | .packedNibble => 4 * sub
  | .packedBit => sub
  | .rgb24 => 0

/-- `mask(subIndex) = FIELD_MASK << shift(subIndex)` (R81). -/
def mask (f : PixelFormat) (sub : Nat) : Word := fieldMask f <<< shift f sub

/-- The sub-byte field of a byte: `(byte >> shift) & FIELD_MASK`, zero-extended (R83). -/
def extractField (f : PixelFormat) (sub : Nat) (byte : Byte) : Word :=
  (byte >>> shift f sub).setWidth 32 &&& fieldMask f

/-- `newByte = (oldByte & ~mask) | (v << shift)`, for a `v` that is truncated already (R84, spec/20_memory.md R47). -/
def mergeField (f : PixelFormat) (sub : Nat) (old : Byte) (v : Word) : Byte :=
  (old &&& ~~~((mask f sub).setWidth 8)) ||| (v <<< shift f sub).setWidth 8

/-- A pixel's value at its place, for a sub-byte format (R83). -/
def readSubByte (p : Params) (buf : Memory) (l : Located) : Except Abort Word :=
  (readByte p buf l.byteOffset).bind fun byte => .ok (extractField p.format l.subIndex byte)

/-- The masked read-modify-write of one byte (R84, spec/20_memory.md R47). -/
def writeSubByte (p : Params) (buf : Memory) (l : Located) (v : Word) : Except Abort Memory :=
  (readByte p buf l.byteOffset).bind fun old =>
    writeByte p buf l.byteOffset (mergeField p.format l.subIndex old v)

/-- `readPixel(buf, x, y)` (R83). -/
def readPixel (p : Params) (buf : Memory) (x y : Int) : Except Abort Word :=
  (locate p x y).bind fun l =>
    match p.format with
    | .packedNibble => readSubByte p buf l
    | .packedBit => readSubByte p buf l
    | .rgb24 => (memRead p buf l.byteOffset 3).bind fun v => .ok (v.setWidth 32)

/-- `writePixel(buf, x, y, value)` (R84). -/
def writePixel (p : Params) (buf : Memory) (x y : Int) (value : Word) : Except Abort Memory :=
  (locate p x y).bind fun l =>
    match p.format with
    | .packedNibble => writeSubByte p buf l (trunc p.format value)
    | .packedBit => writeSubByte p buf l (trunc p.format value)
    | .rgb24 => memWrite p buf l.byteOffset 3 ((trunc p.format value).setWidth 24)

/-- `n` pixels of row `y` from column `x` on (R85, the inner loop). -/
def fillRow (p : Params) (buf : Memory) (x y : Int) (value : Word) : Nat → Except Abort Memory
  | 0 => .ok buf
  | n + 1 => (fillRow p buf x y value n).bind fun buf' => writePixel p buf' (x + n) y value

/-- `h` rows from row `y` on, `w` pixels each from column `x` on (R85, the outer loop). -/
def fillRows (p : Params) (buf : Memory) (x y : Int) (w : Nat) (value : Word) : Nat → Except Abort Memory
  | 0 => .ok buf
  | h + 1 => (fillRows p buf x y w value h).bind fun buf' => fillRow p buf' x (y + h) value w

/-- `fillRegion(buf, x0, y0, x1, y1, value)`: nothing for an empty rectangle; both corners checked before any write; then every
pixel of the inclusive rectangle (R85). -/
def fillRegion (p : Params) (buf : Memory) (x0 y0 x1 y1 : Int) (value : Word) : Except Abort Memory :=
  if emptyRect x0 y0 x1 y1 then .ok buf
  else
    (locate p x0 y0).bind fun _ =>
      (locate p x1 y1).bind fun _ =>
        fillRows p buf x0 y0 (x1 - x0 + 1).toNat value (y1 - y0 + 1).toNat

end Sys2Proof.Machine
end

