-- ==== Sys2Proof/Machine/Drawing.lean ====
section
/-! DEFINITION. The commands that write pixels: SETPX and FILL (spec/41_displaymemory.md R104, R105). -/

namespace Sys2Proof.Machine

/-- What SETPX and FILL share: `made` is the VRAM the write makes; the rectangle is then marked dirty and the response is OK
(R104, R105). -/
def drawn (s : State) (made : Except Abort Memory) (x0 y0 x1 y1 : Int) : Except Abort State :=
  made.bind fun m =>
    .ok (((s.withVram m).withDirty (markDirty s.params s.dirty x0 y0 x1 y1)).respond Response.okPlain)

/-- SETPX: the viewport check, the masked write, the mark (R104). -/
def execSetpx (x y value : Word) (s : State) : Outcome :=
  complete s
    (if inViewport s.params (coord x) (coord y) then
      drawn s (writePixel s.params s.vram (coord x) (coord y) value) (coord x) (coord y) (coord x) (coord y)
    else .error .boundsError)

/-- FILL: an empty rectangle is a no-op with OK; then the viewport check of both corners; then the fill and the mark (R105,
spec/60_exceptions.md R135). -/
def execFill (x0 y0 x1 y1 value : Word) (s : State) : Outcome :=
  complete s
    (if emptyRect (coord x0) (coord y0) (coord x1) (coord y1) then .ok (s.respond Response.okPlain)
    else if inViewport s.params (coord x0) (coord y0) ∧ inViewport s.params (coord x1) (coord y1) then
      drawn s (fillRegion s.params s.vram (coord x0) (coord y0) (coord x1) (coord y1) value)
        (coord x0) (coord y0) (coord x1) (coord y1)
    else .error .boundsError)

end Sys2Proof.Machine
end

