-- ==== Sys2Proof/Machine/Queries.lean ====
section
/-! DEFINITION. The commands that only read: INFO, LOCATE, GETPX, GETDIRTY (spec/41_displaymemory.md R101, R102, R103, R108). -/

namespace Sys2Proof.Machine

/-- INFO: `respond(OK, 0, u32(VW), u32(VH), u32(COLOR_DEPTH), formatCode(FORMAT))` (R101). -/
def execInfo (s : State) : Outcome :=
  complete s (.ok (s.respond (Response.okWith false (u32 s.params.vw) (u32 s.params.vh) s.params.colorDepth
    (u32 (formatCode s.params.format)))))

/-- LOCATE: byteOffset, subIndex, shift and mask of a plane pixel (R102). -/
def execLocate (x y : Word) (s : State) : Outcome :=
  complete s ((locate s.params (coord x) (coord y)).bind fun l =>
    .ok (s.respond (Response.okWith false (u32 l.byteOffset) (u32 l.subIndex)
      (u32 (shift s.params.format l.subIndex)) (mask s.params.format l.subIndex))))

/-- GETPX: the value of a plane pixel (R103). -/
def execGetpx (x y : Word) (s : State) : Outcome :=
  complete s ((readPixel s.params s.vram (coord x) (coord y)).bind fun value =>
    .ok (s.respond (Response.okWith false value 0 0 0)))

/-- GETDIRTY: the dirty region, FLAG 0 and zeros when it is empty (R108). -/
def execGetdirty (s : State) : Outcome :=
  complete s (.ok (s.respond
    (if s.dirty.valid then Response.okWith true s.dirty.x0 s.dirty.y0 s.dirty.x1 s.dirty.y1
     else Response.okWith false 0 0 0 0)))

end Sys2Proof.Machine
end

