-- ==== Sys2Proof/Machine/Dispatch.lean ====
section
/-! DEFINITION. The dispatch of a command to its meaning (spec/41_displaymemory.md R100). -/

namespace Sys2Proof.Machine

/-- The finite map from a command to its handler (R100). -/
def exec (i : Instr) (s : State) : Host.Outcome State Fault Refusal :=
  match i with
  | .info => Sys2Proof.Machine.execInfo s
  | .locate x y => Sys2Proof.Machine.execLocate x y s
  | .getpx x y => Sys2Proof.Machine.execGetpx x y s
  | .setpx x y value => Sys2Proof.Machine.execSetpx x y value s
  | .fill x0 y0 x1 y1 value => Sys2Proof.Machine.execFill x0 y0 x1 y1 value s
  | .mark x0 y0 x1 y1 => Sys2Proof.Machine.execMark x0 y0 x1 y1 s
  | .clrdirty => Sys2Proof.Machine.execClrdirty s
  | .getdirty => Sys2Proof.Machine.execGetdirty s
  | .reset => Sys2Proof.Machine.execReset s
  | .reserved op => Sys2Proof.Machine.execReserved op s

end Sys2Proof.Machine
end

