-- ==== Sys2Proof/Machine/Port.lean ====
section
/-! DEFINITION. The command port at transaction level: what happens on it in one step (spec/70_reset_and_hazards.md R160,
R161). -/

namespace Sys2Proof.Machine

/-- `cmd_ready`: no response is waiting. A command in progress is never seen between steps, since a command and its response are
one step (R161). -/
def State.cmdReady (s : State) : Bool := s.rsp.isNone

/-- What the input pins carry once the schedule is at its end: no reset, and a host that takes each response (DESIGN CHOICE,
assumption 2). -/
def Pins.atRest : Pins := { rst := false, rspReady := true }

/-- What the input pins carry in this step. -/
def State.pinsNow (s : State) : Pins := s.pins.headD Pins.atRest

/-- The state whose pins have moved on to the following step. -/
def State.tick (s : State) : State := s.withPins s.pins.tail

/-- What one step does on the port (R161). -/
inductive PortEvent where
  /-- `rst` is asserted. -/
  | resetAsserted
  /-- `rsp_valid ∧ rsp_ready`: the response is taken. -/
  | responseTaken
  /-- `rsp_valid` without `rsp_ready`: the response waits, and any command offered is held. -/
  | responseHeld
  /-- The port is ready and no command is offered. -/
  | idle
  /-- `cmd_valid ∧ cmd_ready`: the command offered is accepted. -/
  | accepted (w : CmdWord)
  deriving DecidableEq, Repr

/-- The event of this step. `rst` goes before all else, and a command offered meanwhile is not accepted (DESIGN CHOICE,
assumption 3). -/
def State.portEvent (s : State) : PortEvent :=
  if s.pinsNow.rst then .resetAsserted
  else
    match s.rsp, s.offered with
    | some _, _ => if s.pinsNow.rspReady then .responseTaken else .responseHeld
    | none, [] => .idle
    | none, w :: _ => .accepted w

/-- Asserting `rst` abandons a response that waits and sets the state of R150; what is offered stays offered (R161). -/
def State.portReset (s : State) : State := (resetSequence s).withRsp none

/-- The response is taken, and the port is ready again (R161). -/
def State.takeResponse (s : State) : State := s.withRsp none

/-- The command offered first is accepted: it is offered no more (R160, R161). -/
def State.accept (s : State) : State := s.withOffered s.offered.tail

end Sys2Proof.Machine
end

