-- ==== Sys2Proof/Machine/Step.lean ====
section
/-! DEFINITION. One step of the block: one event on its port (spec/70_reset_and_hazards.md R161), an accepted command being
performed whole in the step that accepts it (spec/41_displaymemory.md R100). -/

namespace Sys2Proof.Machine

/-- One step. Without a legal parameter set there is no block and no command is ever accepted (spec/60_exceptions.md R133). -/
def step (s : State) : Host.Outcome State Fault Refusal :=
  if Params.legal s.params then
    match s.portEvent with
    | .resetAsserted => .next s.tick.portReset
    | .responseTaken => .next s.tick.takeResponse
    | .responseHeld => .next s.tick
    | .idle => .next s.tick
    | .accepted w => exec (decode w) s.tick.accept
  else .refused .illegalParameters

/-- `s` with the command word of `nbits` and `w` offered next on a port that is ready to accept it: the response that waited has
been taken and `rst` is not asserted in the next step. -/
def State.withFetchWord (s : State) (nbits w : Nat) : State :=
  ((s.withRsp none).withOffered (tableWord nbits w :: s.offered)).withPins (Pins.atRest :: s.pins)

end Sys2Proof.Machine
end

