-- ==== Sys2Proof/Machine/Assembler.lean ====
section
/-! DEFINITION. The assembly syntax of commands and the pseudo-commands (spec/30_encoding.md R69, R70). Text is a list of
characters. -/

namespace Sys2Proof.Machine

/-- The pseudo-commands (R70). -/
inductive Pseudo where
  | clrpx (x y : Word)
  | markpx (x y : Word)
  | markall
  | fillall (value : Word)
  | ack
  deriving DecidableEq, Repr

/-- The command a pseudo-command expands to, for an instance with parameters `p` (R70). -/
def Pseudo.expand (p : Params) : Pseudo → Instr
  | .clrpx x y => .setpx x y 0
  | .markpx x y => .mark x y x y
  | .markall => .mark 0 0 (BitVec.ofNat 32 (p.vw - 1)) (BitVec.ofNat 32 (p.vh - 1))
  | .fillall value => .fill 0 0 (BitVec.ofNat 32 (p.vw - 1)) (BitVec.ofNat 32 (p.vh - 1)) value
  | .ack => .clrdirty

/-- Why a line is no command. -/
inductive AsmError where
  /-- The mnemonic is none of R65, R70 and `.word`. -/
  | unknownMnemonic
  /-- An operand is no decimal or 0x hexadecimal integer. -/
  | badInteger
  /-- An operand lies outside its field. -/
  | outOfRange
  /-- The mnemonic takes another number of operands. -/
  | operandCount
  deriving DecidableEq, Repr

/-- A blank of a line. -/
def isBlank (c : Char) : Bool := c == ' ' || c == '\t' || c == '\r'

/-- A text without the blanks at its two ends. -/
def trimBlanks (cs : List Char) : List Char :=
  ((cs.dropWhile isBlank).reverse.dropWhile isBlank).reverse

/-- A text cut at every occurrence of a character. -/
def splitAtChar (sep : Char) : List Char → List (List Char)
  | [] => [[]]
  | c :: cs =>
    match splitAtChar sep cs with
    | [] => [[c]]
    | w :: ws => if c == sep then [] :: w :: ws else (c :: w) :: ws

/-- The value of a digit in a base up to 16. -/
def digitValue (base : Nat) (c : Char) : Option Nat :=
  let n := c.toNat
  let v := if 48 ≤ n ∧ n ≤ 57 then n - 48 else if 65 ≤ n ∧ n ≤ 70 then n - 55 else if 97 ≤ n ∧ n ≤ 102 then n - 87 else 16
  if v < base then some v else none

/-- The number a string of digits writes, after the digits read so far. -/
def digitsValue (base acc : Nat) : List Char → Option Nat
  | [] => some acc
  | c :: cs =>
    match digitValue base c with
    | some v => digitsValue base (base * acc + v) cs
    | none => none

/-- A decimal or 0x hexadecimal number (R69). -/
def parseNat (cs : List Char) : Option Nat :=
  match cs with
  | [] => none
  | '0' :: 'x' :: [] => none
  | '0' :: 'x' :: d :: ds => digitsValue 16 0 (d :: ds)
  | d :: ds => digitsValue 10 0 (d :: ds)

/-- A decimal or 0x hexadecimal integer, which may be negative (R69). -/
def parseInt (cs : List Char) : Except AsmError Int :=
  match trimBlanks cs with
  | '-' :: ds =>
    match parseNat ds with
    | some n => .ok (-(n : Int))
    | none => .error .badInteger
  | ds =>
    match parseNat ds with
    | some n => .ok n
    | none => .error .badInteger

/-- The integers of a list of operands. -/
def parseInts : List (List Char) → Except AsmError (List Int)
  | [] => .ok []
  | o :: os => (parseInt o).bind fun n => (parseInts os).bind fun ns => .ok (n :: ns)

/-- A number in a field that admits `lo .. hi`. -/
def inField (lo hi n : Int) : Except AsmError Word :=
  if lo ≤ n ∧ n ≤ hi then .ok (BitVec.ofInt 32 n) else .error .outOfRange

/-- A coordinate operand, a 32-bit signed integer (R60, R69). -/
def coordOperand (n : Int) : Except AsmError Word := inField (-(2 ^ 31)) (2 ^ 31 - 1) n

/-- A value operand, an unsigned integer `0 .. 2^32-1` (R69). -/
def valueOperand (n : Int) : Except AsmError Word := inField 0 (2 ^ 32 - 1) n

/-- A coordinate field of the raw form, written as its signed or its unsigned number (R69, DESIGN CHOICE, assumption 6). -/
def rawCoord (n : Int) : Except AsmError Word := inField (-(2 ^ 31)) (2 ^ 32 - 1) n

/-- The command over two coordinates. -/
def withXY (ns : List Int) (f : Word → Word → Instr) : Except AsmError Instr :=
  match ns with
  | [x, y] => (coordOperand x).bind fun x' => (coordOperand y).bind fun y' => .ok (f x' y')
  | _ => .error .operandCount

/-- The command over two corners. -/
def withCorners (ns : List Int) (f : Word → Word → Word → Word → Instr) : Except AsmError Instr :=
  match ns with
  | [x0, y0, x1, y1] =>
    (coordOperand x0).bind fun a => (coordOperand y0).bind fun b =>
      (coordOperand x1).bind fun c => (coordOperand y1).bind fun d => .ok (f a b c d)
  | _ => .error .operandCount

/-- The command without operands. -/
def withNone (ns : List Int) (i : Instr) : Except AsmError Instr :=
  match ns with
  | [] => .ok i
  | _ :: _ => .error .operandCount

/-- The command of a mnemonic and its operands, pseudo-commands expanded (R65, R69, R70). -/
def assembleCommand (p : Params) (mnemonic : List Char) (ns : List Int) : Except AsmError Instr :=
  if mnemonic = ['I', 'N', 'F', 'O'] then withNone ns .info
  else if mnemonic = ['L', 'O', 'C', 'A', 'T', 'E'] then withXY ns .locate
  else if mnemonic = ['G', 'E', 'T', 'P', 'X'] then withXY ns .getpx
  else if mnemonic = ['S', 'E', 'T', 'P', 'X'] then
    match ns with
    | [x, y, v] => (valueOperand v).bind fun v' => withXY [x, y] fun x' y' => .setpx x' y' v'
    | _ => .error .operandCount
  else if mnemonic = ['F', 'I', 'L', 'L'] then
    match ns with
    | [x0, y0, x1, y1, v] =>
      (valueOperand v).bind fun v' => withCorners [x0, y0, x1, y1] fun a b c d => .fill a b c d v'
    | _ => .error .operandCount
  else if mnemonic = ['M', 'A', 'R', 'K'] then withCorners ns .mark
  else if mnemonic = ['C', 'L', 'R', 'D', 'I', 'R', 'T', 'Y'] then withNone ns .clrdirty
  else if mnemonic = ['G', 'E', 'T', 'D', 'I', 'R', 'T', 'Y'] then withNone ns .getdirty
  else if mnemonic = ['R', 'E', 'S', 'E', 'T'] then withNone ns .reset
  else if mnemonic = ['C', 'L', 'R', 'P', 'X'] then withXY ns fun x y => Pseudo.expand p (.clrpx x y)
  else if mnemonic = ['M', 'A', 'R', 'K', 'P', 'X'] then withXY ns fun x y => Pseudo.expand p (.markpx x y)
  else if mnemonic = ['M', 'A', 'R', 'K', 'A', 'L', 'L'] then withNone ns (Pseudo.expand p .markall)
  else if mnemonic = ['F', 'I', 'L', 'L', 'A', 'L', 'L'] then
    match ns with
    | [v] => (valueOperand v).bind fun v' => .ok (Pseudo.expand p (.fillall v'))
    | _ => .error .operandCount
  else if mnemonic = ['A', 'C', 'K'] then withNone ns (Pseudo.expand p .ack)
  else .error .unknownMnemonic

/-- The raw form `.word op, a, b, c, d, v`, fields left out being 0 (R69). -/
def assembleRaw (ns : List Int) : Except AsmError CmdWord :=
  match ns with
  | [] => .ok (CmdWord.ofFields 0 0 0 0 0 0)
  | op :: rest =>
    if 5 < rest.length then .error .operandCount
    else if 0 ≤ op ∧ op ≤ 255 then
      (rawCoord (rest.getD 0 0)).bind fun a => (rawCoord (rest.getD 1 0)).bind fun b =>
        (rawCoord (rest.getD 2 0)).bind fun c => (rawCoord (rest.getD 3 0)).bind fun d =>
          (valueOperand (rest.getD 4 0)).bind fun v => .ok (CmdWord.ofFields (BitVec.ofInt 8 op) a b c d v)
    else .error .outOfRange

/-- The operands of a line after its mnemonic: none, or texts with commas between them (R69). -/
def operandTexts (cs : List Char) : List (List Char) :=
  match trimBlanks cs with
  | [] => []
  | c :: rest => splitAtChar ',' (c :: rest)

/-- One line: no word for a blank line or a comment, else the word of its command; `;` starts a comment (R69). -/
def assembleLine (p : Params) (line : List Char) : Except AsmError (Option CmdWord) :=
  match trimBlanks (line.takeWhile (· != ';')) with
  | [] => .ok none
  | c :: rest =>
    let mnemonic := (c :: rest).takeWhile (fun d => !isBlank d)
    let operands := operandTexts ((c :: rest).dropWhile (fun d => !isBlank d))
    (parseInts operands).bind fun ns =>
      if mnemonic = ['.', 'w', 'o', 'r', 'd'] then (assembleRaw ns).bind fun w => .ok (some w)
      else (assembleCommand p mnemonic ns).bind fun i => .ok (some (encode i))

/-- The words of a list of lines, in order. -/
def assembleLines (p : Params) : List (List Char) → Except AsmError (List CmdWord)
  | [] => .ok []
  | l :: ls =>
    (assembleLine p l).bind fun w => (assembleLines p ls).bind fun ws => .ok (w.toList ++ ws)

/-- A program: one command a line (R69). -/
def assemble (p : Params) (source : List Char) : Except AsmError (List CmdWord) :=
  assembleLines p (splitAtChar '\n' source)

end Sys2Proof.Machine
end

