-- ==== Sys2Proof/Safety.lean ====
section
/-! DEFINITION. The terms the claims are stated in: the machine's invariant, the bytes and bits of a pixel, what a command
writes, and runs of commands (spec/10_state.md R23, R30, R31, spec/70_reset_and_hazards.md R160). -/

namespace Sys2Proof.Machine

/-- No VRAM cell lies outside `0 .. VRAM_SIZE-1` (spec/10_state.md R22). -/
abbrev vramInside (p : Params) (m : Memory) : Prop := ∀ c ∈ m, c.1 < Params.vramSize p

/-- What R23 says of the dirty-region register: inside the viewport and ordered when valid, 0 in every field when not. -/
abbrev dirtyLegal (p : Params) (d : DirtyReg) : Prop :=
  (d.valid = true → 0 ≤ coord d.x0 ∧ coord d.x0 ≤ coord d.x1 ∧ coord d.x1 ≤ (p.vw : Int) - 1 ∧
    0 ≤ coord d.y0 ∧ coord d.y0 ≤ coord d.y1 ∧ coord d.y1 ≤ (p.vh : Int) - 1) ∧
  (d.valid = false → d.x0 = 0 ∧ d.y0 = 0 ∧ d.x1 = 0 ∧ d.y1 = 0)

/-- Bit `k` of row `y`, counted from bit 0 of the row's first byte (spec/20_memory.md R41, R42). -/
def rowBit (p : Params) (m : Memory) (y k : Nat) : Bool :=
  (Memory.read m (y * Params.stride p + k / 8)).getLsbD (k % 8)

/-- Every plane pixel outside the viewport holds 0 (spec/10_state.md R30). -/
abbrev outsidePixelsZero (p : Params) (m : Memory) : Prop :=
  ∀ y < p.ph, ∀ x < p.pw, p.vw ≤ x ∨ p.vh ≤ y → readPixel p m x y = .ok 0

/-- Every padding bit at the end of a row is 0 (spec/10_state.md R30). -/
abbrev paddingZero (p : Params) (m : Memory) : Prop :=
  ∀ y < p.ph, ∀ k < 8 * Params.stride p, p.pw * bitsPerPixel p.format ≤ k → rowBit p m y k = false

/-- The invariant of the machine: a legal instance (spec/00_scope.md R11), VRAM in its canonical form and inside its bounds, the
dirty region legal (spec/10_state.md R23), and the bits that belong to no viewport pixel 0 (spec/10_state.md R30). -/
structure StateInv (s : State) : Prop where
  legal : Params.legal s.params
  wf : Memory.wf s.vram
  inside : vramInside s.params s.vram
  dirty : dirtyLegal s.params s.dirty
  outside : outsidePixelsZero s.params s.vram
  padding : paddingZero s.params s.vram

/-- The VRAM offsets of the bytes that hold a plane pixel (spec/20_memory.md R41, R43). -/
def pixelBytes (p : Params) (x y : Nat) : List Nat :=
  match p.format with
  | .packedNibble => [(layout p x y).byteOffset]
  | .packedBit => [(layout p x y).byteOffset]
  | .rgb24 => [(layout p x y).byteOffset, (layout p x y).byteOffset + 1, (layout p x y).byteOffset + 2]

/-- The response of a command that raised BoundsError (spec/60_exceptions.md R130). -/
def boundsResponse : Response := { status := .boundsError, flag := false, r0 := 0, r1 := 0, r2 := 0, r3 := 0 }

/-- The response OK without results. -/
def okResponse : Response := { status := .ok, flag := false, r0 := 0, r1 := 0, r2 := 0, r3 := 0 }

/-- A command raises BoundsError on an instance with parameters `p`: the table of spec/60_exceptions.md R130. -/
def raisesBounds (p : Params) : Instr → Prop
  | .info => False
  | .locate x y => ¬ inPlane p (coord x) (coord y)
  | .getpx x y => ¬ inPlane p (coord x) (coord y)
  | .setpx x y _ => ¬ inViewport p (coord x) (coord y)
  | .fill x0 y0 x1 y1 _ =>
    (coord x0 ≤ coord x1 ∧ coord y0 ≤ coord y1) ∧
      (¬ inViewport p (coord x0) (coord y0) ∨ ¬ inViewport p (coord x1) (coord y1))
  | .mark _ _ _ _ => False
  | .clrdirty => False
  | .getdirty => False
  | .reset => False
  | .reserved _ => False

/-- The viewport pixels a command writes, whether or not their values change (spec/10_state.md R31). -/
def writesPixel (p : Params) (i : Instr) (px py : Int) : Prop :=
  match i with
  | .info => False
  | .locate _ _ => False
  | .getpx _ _ => False
  | .setpx x y _ => inViewport p (coord x) (coord y) ∧ px = coord x ∧ py = coord y
  | .fill x0 y0 x1 y1 _ =>
    inViewport p (coord x0) (coord y0) ∧ inViewport p (coord x1) (coord y1) ∧
      coord x0 ≤ px ∧ px ≤ coord x1 ∧ coord y0 ≤ py ∧ py ≤ coord y1
  | .mark _ _ _ _ => False
  | .clrdirty => False
  | .getdirty => False
  | .reset => inViewport p px py
  | .reserved _ => False

/-- The commands that change no state: the reads (spec/20_memory.md R49) and the reserved op codes (spec/41_displaymemory.md R110). -/
def changesNoState : Instr → Bool
  | .info => true
  | .locate _ _ => true
  | .getpx _ _ => true
  | .setpx _ _ _ => false
  | .fill _ _ _ _ _ => false
  | .mark _ _ _ _ => false
  | .clrdirty => false
  | .getdirty => true
  | .reset => false
  | .reserved _ => true

/-- The commands that write VRAM (spec/10_state.md R22). -/
def writesVram : Instr → Bool
  | .info => false
  | .locate _ _ => false
  | .getpx _ _ => false
  | .setpx _ _ _ => true
  | .fill _ _ _ _ _ => true
  | .mark _ _ _ _ => false
  | .clrdirty => false
  | .getdirty => false
  | .reset => true
  | .reserved _ => false

/-- The commands performed one after another, the host taking each response: the state they end in and their responses in
order; none if one of them stops. -/
def performAll : List Instr → State → Option (State × List Response)
  | [], s => some (s, [])
  | i :: is, s =>
    match exec i s with
    | .next t =>
      match t.rsp with
      | none => none
      | some r =>
        match performAll is t.takeResponse with
        | none => none
        | some (u, rs) => some (u, r :: rs)
    | .fault _ => none
    | .refused _ => none

/-- The outcome after `n` steps, or the first stop. -/
def runSteps : Nat → State → Outcome
  | 0, s => .next s
  | n + 1, s =>
    match step s with
    | .next t => runSteps n t
    | .fault f => .fault f
    | .refused r => .refused r

/-- The responses the host takes during `n` steps, in order (spec/70_reset_and_hazards.md R160, R161). -/
def takenResponses : Nat → State → List Response
  | 0, _ => []
  | n + 1, s =>
    match step s with
    | .next t =>
      if s.portEvent = .responseTaken then s.rsp.toList ++ takenResponses n t else takenResponses n t
    | .fault _ => []
    | .refused _ => []

end Sys2Proof.Machine
end

