-- ==== Sys2Proof/Certificates/Slice0/Obligations.lean ====
section
/-! DEFINITION. The statements for the provers, from the spec's numbered rules. -/

open Sys2Proof Sys2Proof.Machine

/-! ### The command word -/

/-- spec/30_encoding.md R60: OP in bits 7:0, A in 39:8, B in 71:40, C in 103:72, D in 135:104 and V in 167:136, the word being
written most significant field first; the op codes are those of R65. -/
def Obligations.CmdFieldsReachTheCommand : Prop :=
  ∀ (op : Byte) (a b c d v : Word),
    (op = 0x00 → decode (v ++ d ++ c ++ b ++ a ++ op : CmdWord) = .info) ∧
    (op = 0x01 → decode (v ++ d ++ c ++ b ++ a ++ op : CmdWord) = .locate a b) ∧
    (op = 0x02 → decode (v ++ d ++ c ++ b ++ a ++ op : CmdWord) = .getpx a b) ∧
    (op = 0x03 → decode (v ++ d ++ c ++ b ++ a ++ op : CmdWord) = .setpx a b v) ∧
    (op = 0x04 → decode (v ++ d ++ c ++ b ++ a ++ op : CmdWord) = .fill a b c d v) ∧
    (op = 0x05 → decode (v ++ d ++ c ++ b ++ a ++ op : CmdWord) = .mark a b c d) ∧
    (op = 0x06 → decode (v ++ d ++ c ++ b ++ a ++ op : CmdWord) = .clrdirty) ∧
    (op = 0x07 → decode (v ++ d ++ c ++ b ++ a ++ op : CmdWord) = .getdirty) ∧
    (op = 0x08 → decode (v ++ d ++ c ++ b ++ a ++ op : CmdWord) = .reset) ∧
    (9 ≤ op.toNat → decode (v ++ d ++ c ++ b ++ a ++ op : CmdWord) = .reserved op)

/-- spec/30_encoding.md section 1 and 2: the decoder reads back every well-formed command the encoder writes. -/
def Obligations.DecodeInvertsEncode : Prop :=
  ∀ i : Instr, i.wellFormed = true → decode (encode i) = i

/-- spec/30_encoding.md R65 to R68: every 168-bit word is a well-formed command, and encoding it again keeps its op code and its
meaning. -/
def Obligations.EveryWordIsACommand : Prop :=
  ∀ w : CmdWord, (decode w).wellFormed = true ∧ (encode (decode w)).extractLsb' 0 8 = w.extractLsb' 0 8 ∧
    decode (encode (decode w)) = decode w

/-- spec/30_encoding.md R61: byte `k` of a word on a byte-wide link carries bits `8k+7 .. 8k`; CMD is 21 bytes and RSP 18. Fewer
bytes are no command. -/
def Obligations.ByteLinkCarriesWords : Prop :=
  (∀ (w : CmdWord) (rest : List Byte),
    decodeBytes ((List.range 21).map (fun k => w.extractLsb' (8 * k) 8) ++ rest) = .ok (decode w, rest)) ∧
  (∀ i : Instr, encodeBytes i = (List.range 21).map (fun k => (encode i).extractLsb' (8 * k) 8)) ∧
  (∀ r : Response, r.bytes = (List.range 18).map (fun k => r.word.extractLsb' (8 * k) 8)) ∧
  (∀ bs : List Byte, bs.length < 21 → decodeBytes bs = .error .truncated)

/-- Nine words that spec/95_test_vectors.md writes out (V-ENC, and P1 to P4), and one that it does not: the sixth, an INFO whose
unused fields are 5, 4, 3, 2 and 1, follows from spec/30_encoding.md R65 and R66. -/
def Obligations.PrintedWordsDecode : Prop :=
  decode 0x0000000F0000000000000000000000000000000103 = .setpx 1 0 0xF ∧
  decode 0x00000000000000000000000000000000FFFFFFFF02 = .getpx (-1) 0 ∧
  decode 0x0000000000000003FFFFFFFB00000003FFFFFFF605 = .mark (-10) 3 (-5) 3 ∧
  decode 0x00000001000000020000000C000000010000000304 = .fill 3 1 12 2 1 ∧
  decode 0x000000000000000000000000000000010000000501 = .locate 5 1 ∧
  decode 0x000000050000000400000003000000020000000100 = .info ∧
  decode 0x000000000000000000000000000000000000000006 = .clrdirty ∧
  decode 0x000000000000000000000000000000000000000007 = .getdirty ∧
  decode 0x000000000000000000000000000000000000000008 = .reset ∧
  decode 0x0000000500000004000000030000000200000001FF = .reserved 0xFF

/-! ### The response word -/

/-- spec/30_encoding.md section 1, the tables of R63 and R64: the fields of RSP at their bits, 0 in the bits between, and no
status code 3. -/
def Obligations.ResponseWordFields : Prop :=
  ∀ r : Response,
    (r.status = .ok → r.word.extractLsb' 0 2 = 0#2) ∧
    (r.status = .boundsError → r.word.extractLsb' 0 2 = 1#2) ∧
    (r.status = .illegalOp → r.word.extractLsb' 0 2 = 2#2) ∧
    r.word.extractLsb' 2 6 = 0#6 ∧ r.word.getLsbD 8 = r.flag ∧ r.word.extractLsb' 9 7 = 0#7 ∧
    r.word.extractLsb' 16 32 = r.r0 ∧ r.word.extractLsb' 48 32 = r.r1 ∧
    r.word.extractLsb' 80 32 = r.r2 ∧ r.word.extractLsb' 112 32 = r.r3

/-- spec/30_encoding.md R63: a result field that a command does not define is 0, all are 0 when STATUS is not OK, FLAG is
GETDIRTY's alone, and a performed command has given a response. -/
def Obligations.UndefinedResultFieldsAreZero : Prop :=
  ∀ (i : Instr) (s t : State), exec i s = .next t →
    ∃ r, t.rsp = some r ∧
      (r.status ≠ .ok → r.flag = false ∧ r.r0 = 0 ∧ r.r1 = 0 ∧ r.r2 = 0 ∧ r.r3 = 0) ∧
      (i ≠ .getdirty → r.flag = false) ∧
      (∀ x y, i = .getpx x y → r.r1 = 0 ∧ r.r2 = 0 ∧ r.r3 = 0) ∧
      ((∀ x y, i ≠ .getpx x y) → (∀ x y, i ≠ .locate x y) → i ≠ .info → i ≠ .getdirty →
        r.r0 = 0 ∧ r.r1 = 0 ∧ r.r2 = 0 ∧ r.r3 = 0)

/-! ### The instance -/

/-- spec/00_scope.md R5 and spec/30_encoding.md R62: bits per pixel, field mask and code of each format, FIELD_MASK being
2^BPP - 1, and code 3 no format. -/
def Obligations.FormatConstants : Prop :=
  bitsPerPixel .packedNibble = 4 ∧ bitsPerPixel .packedBit = 1 ∧ bitsPerPixel .rgb24 = 24 ∧
  (∀ f, (fieldMask f).toNat = 2 ^ bitsPerPixel f - 1) ∧
  (∀ f, formatOfCode (formatCode f) = some f) ∧
  formatCode .packedNibble = 0 ∧ formatCode .packedBit = 1 ∧ formatCode .rgb24 = 2 ∧
  (∀ c, 3 ≤ c → formatOfCode c = none)

/-- spec/00_scope.md R11: exactly the legal parameter sets elaborate a block, which is then in its power-on state; COLOR_DEPTH
defaults to BPP (R9). -/
def Obligations.ElaborationAcceptsExactlyLegalSets : Prop :=
  ∀ r : RawParams,
    ((∃ f, formatOfCode r.formatCode = some f ∧ 1 ≤ r.pw ∧ 1 ≤ r.ph ∧ 1 ≤ r.vw ∧ r.vw ≤ r.pw ∧ 1 ≤ r.vh ∧ r.vh ≤ r.ph ∧
        r.pw ≤ 2 ^ 31 - 1 ∧ r.ph ≤ 2 ^ 31 - 1 ∧ (r.pw * bitsPerPixel f + 7) / 8 * r.ph ≤ 2 ^ 32) →
      ∃ f p, formatOfCode r.formatCode = some f ∧ elaborate r = .ok (State.powerOn p) ∧ p.format = f ∧
        (p.pw : Int) = r.pw ∧ (p.ph : Int) = r.ph ∧ (p.vw : Int) = r.vw ∧ (p.vh : Int) = r.vh ∧
        p.colorDepth = (match r.colorDepth with | some c => c | none => BitVec.ofNat 32 (bitsPerPixel f))) ∧
    ((¬ ∃ f, formatOfCode r.formatCode = some f ∧ 1 ≤ r.pw ∧ 1 ≤ r.ph ∧ 1 ≤ r.vw ∧ r.vw ≤ r.pw ∧ 1 ≤ r.vh ∧
        r.vh ≤ r.ph ∧ r.pw ≤ 2 ^ 31 - 1 ∧ r.ph ≤ 2 ^ 31 - 1 ∧
        (r.pw * bitsPerPixel f + 7) / 8 * r.ph ≤ 2 ^ 32) →
      elaborate r = .error .invalidDimensions)

/-- spec/60_exceptions.md section 1: without a legal parameter set no command is accepted. That step says so by a refusal is the
model's form (assumption 4). -/
def Obligations.IllegalInstanceAcceptsNothing : Prop :=
  ∀ s : State, ¬ Params.legal s.params → step s = .refused .illegalParameters

/-- spec/10_state.md R21: no step changes the instance's constants. -/
def Obligations.ParametersNeverChange : Prop :=
  ∀ s t : State, step s = .next t → t.params = s.params

/-! ### Reset -/

/-- spec/70_reset_and_hazards.md R150: the power-on state, which is the state the reset sequence leaves and the state an asserted
reset input sets; the port is idle. -/
def Obligations.PowerOnState : Prop :=
  ∀ p : Params, Params.legal p →
    (∀ a, Memory.read (State.powerOn p).vram a = 0) ∧
    (State.powerOn p).dirty.valid = true ∧
    coord (State.powerOn p).dirty.x0 = 0 ∧ coord (State.powerOn p).dirty.y0 = 0 ∧
    coord (State.powerOn p).dirty.x1 = (p.vw : Int) - 1 ∧ coord (State.powerOn p).dirty.y1 = (p.vh : Int) - 1 ∧
    (State.powerOn p).params = p ∧ (State.powerOn p).rsp = none ∧ (State.powerOn p).cmdReady = true ∧
    (∀ s : State, s.params = p →
      (resetSequence s).vram = (State.powerOn p).vram ∧ (resetSequence s).dirty = (State.powerOn p).dirty ∧
      (s.pinsNow.rst = true → ∃ t, step s = .next t ∧ t.vram = (State.powerOn p).vram ∧
        t.dirty = (State.powerOn p).dirty ∧ t.params = p ∧ t.rsp = none ∧ t.cmdReady = true))

/-- spec/70_reset_and_hazards.md section 3: asserting `rst` gives the power-on state whatever the state before it. That a command
offered meanwhile is not accepted and stays offered is the model's choice (assumption 3). -/
def Obligations.ResetInputComesFirst : Prop :=
  ∀ s : State, Params.legal s.params → s.pinsNow.rst = true →
    step s = .next (((State.powerOn s.params).withOffered s.offered).withPins s.pins.tail)

/-- spec/41_displaymemory.md R109: RESET restores the power-on VRAM and dirty region and answers OK; nothing else changes. -/
def Obligations.ResetCommandRestoresPowerOn : Prop :=
  (∀ w : CmdWord, w.extractLsb' 0 8 = 0x08#8 → decode w = .reset) ∧
  ∀ s : State, Params.legal s.params →
    exec .reset s = .next (((s.withVram (State.powerOn s.params).vram).withDirty
      (State.powerOn s.params).dirty).withRsp (some okResponse))

/-- spec/70_reset_and_hazards.md R152: the reset sequence forgets the state before it, and two RESETs in a row equal one. -/
def Obligations.ResetIsIdempotent : Prop :=
  (∀ s s' : State, s.params = s'.params →
    (resetSequence s).vram = (resetSequence s').vram ∧ (resetSequence s).dirty = (resetSequence s').dirty) ∧
  (∀ s t : State, exec .reset s = .next t → exec .reset t = .next t) ∧
  (∀ s a, Memory.read (resetSequence s).vram a = 0)

/-! ### The port -/

/-- spec/41_displaymemory.md section 1 and spec/70_reset_and_hazards.md section 3: the step that accepts a command performs the
command decoded from its word, on the state with the command no longer offered and the pins moved on. -/
def Obligations.StepPerformsTheAcceptedCommand : Prop :=
  ∀ (s : State) (w : CmdWord) (ws : List CmdWord), Params.legal s.params → s.pinsNow.rst = false → s.rsp = none →
    s.offered = w :: ws →
    step s = exec (decode w) ((s.withOffered ws).withPins s.pins.tail)

/-- spec/70_reset_and_hazards.md section 3: while a response waits no command is accepted and the one offered is held; the
response goes when it is taken; a ready port with nothing offered idles. -/
def Obligations.ResponseHoldsThePort : Prop :=
  ∀ s : State, Params.legal s.params → s.pinsNow.rst = false →
    (∀ r, s.rsp = some r → s.pinsNow.rspReady = false → step s = .next (s.withPins s.pins.tail)) ∧
    (∀ r, s.rsp = some r → s.pinsNow.rspReady = true → step s = .next ((s.withRsp none).withPins s.pins.tail)) ∧
    (s.rsp = none → s.offered = [] → step s = .next (s.withPins s.pins.tail))

/-- spec/70_reset_and_hazards.md R160: a stream of commands is performed one at a time in the order it is offered, and the
responses are taken in that order. The host takes each response at once, and each command is two steps: the one that performs
it and the one that takes its response. -/
def Obligations.StreamIsServedInOrder : Prop :=
  ∀ (ws : List CmdWord) (s : State), StateInv s → s.rsp = none → s.pins = [] → s.offered = ws →
    ∃ t rs, performAll (ws.map decode) (s.withOffered []) = some (t, rs) ∧
      runSteps (2 * ws.length) s = .next t ∧ takenResponses (2 * ws.length) s = rs ∧
      rs.length = ws.length

/-- spec/70_reset_and_hazards.md section 3 (R162): a GETPX right after a SETPX of the same pixel returns the written value,
through the port: three steps from the offer of the two commands. -/
def Obligations.SetThenGetThroughThePort : Prop :=
  ∀ (s : State) (x y v : Word), StateInv s → inViewport s.params (coord x) (coord y) → s.rsp = none → s.pins = [] →
    s.offered = [encode (.setpx x y v), encode (.getpx x y)] →
    ∃ t, runSteps 3 s = .next t ∧
      t.rsp = some ⟨.ok, false, v &&& fieldMask s.params.format, 0, 0, 0⟩

/-! ### The commands that read -/

/-- spec/41_displaymemory.md R101. -/
def Obligations.InfoReturnsTheConfiguration : Prop :=
  (∀ w : CmdWord, w.extractLsb' 0 8 = 0x00#8 → decode w = .info) ∧
  ∀ s : State, ∃ code : Word,
    exec .info s = .next (s.withRsp (some ⟨.ok, false, BitVec.ofNat 32 s.params.vw,
      BitVec.ofNat 32 s.params.vh, s.params.colorDepth, code⟩)) ∧
    (s.params.format = .packedNibble → code = 0) ∧ (s.params.format = .packedBit → code = 1) ∧
    (s.params.format = .rgb24 → code = 2)

/-- spec/41_displaymemory.md R102: byteOffset, subIndex, shift and mask of a plane pixel by the layout of spec/20_memory.md R41
and R42, and BOUNDS_ERROR outside the plane. -/
def Obligations.LocateReturnsThePlace : Prop :=
  (∀ w : CmdWord, w.extractLsb' 0 8 = 0x01#8 → decode w = .locate (w.extractLsb' 8 32) (w.extractLsb' 40 32)) ∧
  ∀ (s : State) (x y : Word), Params.legal s.params →
    (0 ≤ coord x ∧ coord x < s.params.pw ∧ 0 ≤ coord y ∧ coord y < s.params.ph →
      (s.params.format = .packedNibble → exec (.locate x y) s = .next (s.withRsp (some ⟨.ok, false,
        BitVec.ofNat 32 ((coord y).toNat * ((s.params.pw + 1) / 2) + (coord x).toNat / 2),
        BitVec.ofNat 32 ((coord x).toNat % 2), BitVec.ofNat 32 (4 * ((coord x).toNat % 2)),
        0xF#32 <<< (4 * ((coord x).toNat % 2))⟩))) ∧
      (s.params.format = .packedBit → exec (.locate x y) s = .next (s.withRsp (some ⟨.ok, false,
        BitVec.ofNat 32 ((coord y).toNat * ((s.params.pw + 7) / 8) + (coord x).toNat / 8),
        BitVec.ofNat 32 ((coord x).toNat % 8), BitVec.ofNat 32 ((coord x).toNat % 8),
        0x1#32 <<< ((coord x).toNat % 8)⟩))) ∧
      (s.params.format = .rgb24 → exec (.locate x y) s = .next (s.withRsp (some ⟨.ok, false,
        BitVec.ofNat 32 ((coord y).toNat * (3 * s.params.pw) + 3 * (coord x).toNat),
        0, 0, 0xFFFFFF#32⟩)))) ∧
    (¬ (0 ≤ coord x ∧ coord x < s.params.pw ∧ 0 ≤ coord y ∧ coord y < s.params.ph) →
      exec (.locate x y) s = .next (s.withRsp (some boundsResponse)))

/-- spec/41_displaymemory.md R103 and spec/40_pixelplane.md R83: the value of a plane pixel from its VRAM bytes, BOUNDS_ERROR
outside the plane, and 0 between the viewport and the plane's edge. -/
def Obligations.GetpxReturnsThePixel : Prop :=
  (∀ w : CmdWord, w.extractLsb' 0 8 = 0x02#8 → decode w = .getpx (w.extractLsb' 8 32) (w.extractLsb' 40 32)) ∧
  ∀ (s : State) (x y : Word), Params.legal s.params →
    (0 ≤ coord x ∧ coord x < s.params.pw ∧ 0 ≤ coord y ∧ coord y < s.params.ph →
      (s.params.format = .packedNibble → exec (.getpx x y) s = .next (s.withRsp (some ⟨.ok, false,
        ((Memory.read s.vram ((coord y).toNat * ((s.params.pw + 1) / 2) + (coord x).toNat / 2) >>>
          (4 * ((coord x).toNat % 2))) &&& 0xF#8).setWidth 32, 0, 0, 0⟩))) ∧
      (s.params.format = .packedBit → exec (.getpx x y) s = .next (s.withRsp (some ⟨.ok, false,
        ((Memory.read s.vram ((coord y).toNat * ((s.params.pw + 7) / 8) + (coord x).toNat / 8) >>>
          ((coord x).toNat % 8)) &&& 0x1#8).setWidth 32, 0, 0, 0⟩))) ∧
      (s.params.format = .rgb24 → exec (.getpx x y) s = .next (s.withRsp (some ⟨.ok, false,
        (Memory.read s.vram ((coord y).toNat * (3 * s.params.pw) + 3 * (coord x).toNat) ++
          Memory.read s.vram ((coord y).toNat * (3 * s.params.pw) + 3 * (coord x).toNat + 1) ++
          Memory.read s.vram ((coord y).toNat * (3 * s.params.pw) + 3 * (coord x).toNat + 2)).setWidth 32,
        0, 0, 0⟩)))) ∧
    (¬ (0 ≤ coord x ∧ coord x < s.params.pw ∧ 0 ≤ coord y ∧ coord y < s.params.ph) →
      exec (.getpx x y) s = .next (s.withRsp (some boundsResponse))) ∧
    (StateInv s → inPlane s.params (coord x) (coord y) → ¬ inViewport s.params (coord x) (coord y) →
      exec (.getpx x y) s = .next (s.withRsp (some okResponse)))

/-- spec/41_displaymemory.md R108: FLAG 0 and zeros for an empty region, FLAG 1 and the four corners for a rectangle. -/
def Obligations.GetdirtyReportsTheRegion : Prop :=
  (∀ w : CmdWord, w.extractLsb' 0 8 = 0x07#8 → decode w = .getdirty) ∧
  ∀ s : State,
    (s.dirty.region = none → exec .getdirty s = .next (s.withRsp (some okResponse))) ∧
    (∀ x0 y0 x1 y1 : Int, s.dirty.region = some ⟨x0, y0, x1, y1⟩ →
      exec .getdirty s = .next (s.withRsp (some ⟨.ok, true, BitVec.ofInt 32 x0,
        BitVec.ofInt 32 y0, BitVec.ofInt 32 x1, BitVec.ofInt 32 y1⟩)))

/-! ### The commands that draw -/

/-- spec/41_displaymemory.md R104: outside the viewport BOUNDS_ERROR and nothing else; inside, the masked write of the pixel's
bytes (spec/40_pixelplane.md R84), every other byte as before, the pixel marked dirty, and OK. -/
def Obligations.SetpxWritesThePixelField : Prop :=
  (∀ w : CmdWord, w.extractLsb' 0 8 = 0x03#8 → decode w =
    .setpx (w.extractLsb' 8 32) (w.extractLsb' 40 32) (w.extractLsb' 136 32)) ∧
  ∀ (s : State) (x y v : Word), Params.legal s.params → Memory.wf s.vram →
    (¬ inViewport s.params (coord x) (coord y) →
      exec (.setpx x y v) s = .next (s.withRsp (some boundsResponse))) ∧
    (inViewport s.params (coord x) (coord y) → ∃ m,
      exec (.setpx x y v) s = .next (((s.withVram m).withDirty
        (markDirty s.params s.dirty (coord x) (coord y) (coord x) (coord y))).withRsp (some okResponse)) ∧
      (s.params.format = .packedNibble → ∀ a, Memory.read m a =
        if a = (coord y).toNat * ((s.params.pw + 1) / 2) + (coord x).toNat / 2 then
          (Memory.read s.vram a &&& ~~~(0xF#8 <<< (4 * ((coord x).toNat % 2)))) |||
            ((v &&& 0xF#32).setWidth 8 <<< (4 * ((coord x).toNat % 2)))
        else Memory.read s.vram a) ∧
      (s.params.format = .packedBit → ∀ a, Memory.read m a =
        if a = (coord y).toNat * ((s.params.pw + 7) / 8) + (coord x).toNat / 8 then
          (Memory.read s.vram a &&& ~~~(0x1#8 <<< ((coord x).toNat % 8))) |||
            ((v &&& 0x1#32).setWidth 8 <<< ((coord x).toNat % 8))
        else Memory.read s.vram a) ∧
      (s.params.format = .rgb24 → ∀ a, Memory.read m a =
        if a = (coord y).toNat * (3 * s.params.pw) + 3 * (coord x).toNat then v.extractLsb' 16 8
        else if a = (coord y).toNat * (3 * s.params.pw) + 3 * (coord x).toNat + 1 then v.extractLsb' 8 8
        else if a = (coord y).toNat * (3 * s.params.pw) + 3 * (coord x).toNat + 2 then v.extractLsb' 0 8
        else Memory.read s.vram a))

/-- spec/41_displaymemory.md R105 and spec/40_pixelplane.md R85: an empty rectangle is a no-op with OK whatever its corners; a
non-empty one with a corner outside the viewport is BOUNDS_ERROR; otherwise every pixel of it takes the truncated value, every
other pixel, every padding bit and every byte that holds no pixel of it stay, the rectangle is marked dirty, and OK. A 1×1 fill
does what SETPX does. -/
def Obligations.FillWritesExactlyTheRectangle : Prop :=
  (∀ w : CmdWord, w.extractLsb' 0 8 = 0x04#8 → decode w =
    .fill (w.extractLsb' 8 32) (w.extractLsb' 40 32) (w.extractLsb' 72 32) (w.extractLsb' 104 32) (w.extractLsb' 136 32)) ∧
  ∀ (s : State) (x0 y0 x1 y1 v : Word), Params.legal s.params → Memory.wf s.vram →
    (coord x0 > coord x1 ∨ coord y0 > coord y1 →
      exec (.fill x0 y0 x1 y1 v) s = .next (s.withRsp (some okResponse))) ∧
    (coord x0 ≤ coord x1 → coord y0 ≤ coord y1 →
      (¬ inViewport s.params (coord x0) (coord y0) ∨ ¬ inViewport s.params (coord x1) (coord y1)) →
      exec (.fill x0 y0 x1 y1 v) s = .next (s.withRsp (some boundsResponse))) ∧
    (coord x0 ≤ coord x1 → coord y0 ≤ coord y1 →
      inViewport s.params (coord x0) (coord y0) → inViewport s.params (coord x1) (coord y1) → ∃ m,
      exec (.fill x0 y0 x1 y1 v) s = .next (((s.withVram m).withDirty
        (markDirty s.params s.dirty (coord x0) (coord y0) (coord x1) (coord y1))).withRsp (some okResponse)) ∧
      (∀ px py : Int, inPlane s.params px py →
        (coord x0 ≤ px ∧ px ≤ coord x1 ∧ coord y0 ≤ py ∧ py ≤ coord y1 →
          readPixel s.params m px py = .ok (v &&& fieldMask s.params.format)) ∧
        (¬ (coord x0 ≤ px ∧ px ≤ coord x1 ∧ coord y0 ≤ py ∧ py ≤ coord y1) →
          readPixel s.params m px py = readPixel s.params s.vram px py)) ∧
      (∀ y k, s.params.pw * bitsPerPixel s.params.format ≤ k → k < 8 * Params.stride s.params →
        rowBit s.params m y k = rowBit s.params s.vram y k) ∧
      (∀ a, (∀ px py : Nat, coord x0 ≤ px → (px : Int) ≤ coord x1 → coord y0 ≤ py → (py : Int) ≤ coord y1 →
          a ∉ pixelBytes s.params px py) → Memory.read m a = Memory.read s.vram a)) ∧
    exec (.fill x0 y0 x0 y0 v) s = exec (.setpx x0 y0 v) s

/-- spec/40_pixelplane.md R82: truncation keeps the low BPP bits, and a write stores the truncated value. -/
def Obligations.WritesStoreTheTruncatedValue : Prop :=
  (∀ f v, trunc f v = v &&& fieldMask f ∧ (trunc f v).toNat = v.toNat % 2 ^ bitsPerPixel f) ∧
  (∀ (s : State) (x y v : Word), exec (.setpx x y v) s = exec (.setpx x y (trunc s.params.format v)) s) ∧
  (∀ (s : State) (x0 y0 x1 y1 v : Word),
    exec (.fill x0 y0 x1 y1 v) s = exec (.fill x0 y0 x1 y1 (trunc s.params.format v)) s) ∧
  (trunc .packedNibble 0x17 = 0x7 ∧ trunc .packedNibble 0xFFFFFFFF = 0xF ∧ trunc .packedBit 2 = 0 ∧
    trunc .rgb24 0xFF123456 = 0x123456)

/-! ### PixelPlane -/

/-- spec/40_pixelplane.md R86: writing one pixel never changes what another reads as. -/
def Obligations.WritingAPixelLeavesTheOthers : Prop :=
  ∀ (p : Params) (m : Memory) (x y x' y' : Int) (v : Word), Memory.wf m → inPlane p x y → inPlane p x' y' →
    (x', y') ≠ (x, y) →
    ∃ m', writePixel p m x y v = .ok m' ∧ readPixel p m' x' y' = readPixel p m x' y'

/-- spec/40_pixelplane.md R87: reading a pixel back gives the value that was written, truncated. -/
def Obligations.PixelRoundTrip : Prop :=
  ∀ (p : Params) (m : Memory) (x y : Int) (v : Word), Memory.wf m → inPlane p x y →
    ∃ m', writePixel p m x y v = .ok m' ∧
      readPixel p m' x y = .ok (v &&& BitVec.ofNat 32 (2 ^ bitsPerPixel p.format - 1))

/-- The part of spec/40_pixelplane.md R88 that is about bytes: on one instance, reading and writing a plane pixel depend only on
the bytes the pixel occupies, and writing it touches only those. -/
def Obligations.PixelPlaneUsesOnlyThePixelBytes : Prop :=
  ∀ (p : Params) (m n : Memory) (x y : Int) (v : Word), inPlane p x y → Memory.wf m → Memory.wf n →
    (∀ a ∈ pixelBytes p x.toNat y.toNat, Memory.read m a = Memory.read n a) →
    readPixel p m x y = readPixel p n x y ∧
    ∃ m' n', writePixel p m x y v = .ok m' ∧ writePixel p n x y v = .ok n' ∧
      (∀ a ∈ pixelBytes p x.toNat y.toNat, Memory.read m' a = Memory.read n' a) ∧
      (∀ a, a ∉ pixelBytes p x.toNat y.toNat → Memory.read m' a = Memory.read m a)

/-- spec/20_memory.md section 3 (R45): every pixel's bytes lie inside its own row and inside VRAM, and a sub-byte field does not
cross its byte. -/
def Obligations.AccessesStayInTheirRow : Prop :=
  ∀ (p : Params) (x y : Nat), x < p.pw → y < p.ph →
    locate p x y = .ok (layout p x y) ∧
    (∀ a ∈ pixelBytes p x y, y * Params.stride p ≤ a ∧ a < (y + 1) * Params.stride p ∧ a < Params.vramSize p) ∧
    (p.format ≠ .rgb24 →
      shift p.format (layout p x y).subIndex + bitsPerPixel p.format ≤ 8 ∧
      bitsPerPixel p.format ∣ shift p.format (layout p x y).subIndex)

/-- spec/00_scope.md section 5 (R12): MemRead gives back what MemWrite wrote, the byte at the lowest offset being the most
significant, and MemWrite touches no other byte. -/
def Obligations.MemReadInvertsMemWrite : Prop :=
  ∀ (p : Params) (m : Memory) (a n : Nat) (v : BitVec (8 * n)), Memory.wf m → a + n ≤ Params.vramSize p →
    ∃ m', memWrite p m a n v = .ok m' ∧ memRead p m' a n = .ok v ∧
      (∀ k < n, Memory.read m' (a + k) = v.extractLsb' (8 * (n - k - 1)) 8) ∧
      (∀ j, j < a ∨ a + n ≤ j → Memory.read m' j = Memory.read m j)

/-! ### The dirty region -/

/-- spec/41_displaymemory.md R120 and R121: an empty region adopts the rectangle, ordered on each axis and clamped to the
viewport; another is merged with it component by component; the result is the smallest rectangle that holds both. -/
def Obligations.MarkDirtyIsTheSmallestBox : Prop :=
  ∀ (p : Params) (d : DirtyReg) (x0 y0 x1 y1 : Int), Params.legal p → dirtyLegal p d →
    ∃ a b a' b' : Int,
      a = min (max (min x0 x1) 0) (p.vw - 1) ∧ b = min (max (min y0 y1) 0) (p.vh - 1) ∧
      a' = min (max (max x0 x1) 0) (p.vw - 1) ∧ b' = min (max (max y0 y1) 0) (p.vh - 1) ∧
      a = min (min (max x0 0) (p.vw - 1)) (min (max x1 0) (p.vw - 1)) ∧
      b = min (min (max y0 0) (p.vh - 1)) (min (max y1 0) (p.vh - 1)) ∧
      a' = max (min (max x0 0) (p.vw - 1)) (min (max x1 0) (p.vw - 1)) ∧
      b' = max (min (max y0 0) (p.vh - 1)) (min (max y1 0) (p.vh - 1)) ∧
      (0 ≤ a ∧ a ≤ a' ∧ a' ≤ (p.vw : Int) - 1 ∧ 0 ≤ b ∧ b ≤ b' ∧ b' ≤ (p.vh : Int) - 1) ∧
      (d.region = none → (markDirty p d x0 y0 x1 y1).region = some ⟨a, b, a', b'⟩) ∧
      (∀ r, d.region = some r → (markDirty p d x0 y0 x1 y1).region =
        some ⟨min r.x0 a, min r.y0 b, max r.x1 a', max r.y1 b'⟩) ∧
      (∀ box new : Rect, (markDirty p d x0 y0 x1 y1).region = some new →
        (∀ r, d.region = some r → ∀ px py, r.contains px py → new.contains px py) ∧
        (∀ px py, Rect.contains ⟨a, b, a', b'⟩ px py → new.contains px py) ∧
        ((∀ r, d.region = some r → ∀ px py, r.contains px py → box.contains px py) →
          (∀ px py, Rect.contains ⟨a, b, a', b'⟩ px py → box.contains px py) →
          ∀ px py, new.contains px py → box.contains px py))

/-- spec/41_displaymemory.md R106: MARK merges the rectangle into the dirty region and answers OK; VRAM and all else stay. -/
def Obligations.MarkMergesTheRectangle : Prop :=
  (∀ w : CmdWord, w.extractLsb' 0 8 = 0x05#8 → decode w =
    .mark (w.extractLsb' 8 32) (w.extractLsb' 40 32) (w.extractLsb' 72 32) (w.extractLsb' 104 32)) ∧
  ∀ (s : State) (x0 y0 x1 y1 : Word),
    exec (.mark x0 y0 x1 y1) s = .next ((s.withDirty
      (markDirty s.params s.dirty (coord x0) (coord y0) (coord x1) (coord y1))).withRsp (some okResponse))

/-- spec/41_displaymemory.md R107: CLRDIRTY leaves DIRTY_VALID 0 and the coordinate fields 0 and answers OK; GETDIRTY then reports
an empty region. -/
def Obligations.ClrdirtyEmptiesTheRegion : Prop :=
  (∀ w : CmdWord, w.extractLsb' 0 8 = 0x06#8 → decode w = .clrdirty) ∧
  ∀ s : State, ∃ t,
    exec .clrdirty s = .next t ∧
    t = (s.withDirty { valid := false, x0 := 0, y0 := 0, x1 := 0, y1 := 0 }).withRsp (some okResponse) ∧
    t.dirty.region = none ∧ exec .getdirty t = .next (t.withRsp (some okResponse))

/-- spec/10_state.md R24: a region only grows, but for CLRDIRTY; only CLRDIRTY leaves it empty where it was not. -/
def Obligations.DirtyRegionOnlyGrows : Prop :=
  ∀ (i : Instr) (s t : State) (r : Rect), StateInv s → exec i s = .next t → i ≠ .clrdirty → s.dirty.region = some r →
    ∃ r', t.dirty.region = some r' ∧ ∀ px py, r.contains px py → r'.contains px py

/-- spec/10_state.md section 5 (R31), for one step: every pixel whose value a step changes lies in the dirty region after it. -/
def Obligations.ChangedPixelsAreDirty : Prop :=
  ∀ (s t : State) (px py : Int), StateInv s → step s = .next t → inPlane s.params px py →
    readPixel s.params t.vram px py ≠ readPixel s.params s.vram px py →
    ∃ r, t.dirty.region = some r ∧ r.contains px py

/-- spec/10_state.md R31: over any sequence of commands without a CLRDIRTY, whether it begins at power-on, after a CLRDIRTY or in
any state of the invariant, every viewport pixel that one of them wrote lies inside DIRTY at the end. -/
def Obligations.WrittenPixelsStayDirty : Prop :=
  ∀ (is : List Instr) (s t : State) (rs : List Response) (i : Instr) (px py : Int), StateInv s →
    performAll is s = some (t, rs) → Instr.clrdirty ∉ is → i ∈ is → writesPixel s.params i px py →
    ∃ r, t.dirty.region = some r ∧ r.contains px py

/-! ### Errors and reserved op codes -/

/-- spec/41_displaymemory.md R110: a reserved op code answers ILLEGAL_OP with all results 0 and changes nothing, whatever the
other fields. -/
def Obligations.ReservedOpAnswersIllegalOp : Prop :=
  ∀ (s : State) (op : Byte) (a b c d v : Word), 9 ≤ op.toNat →
    exec (.reserved op) s =
      .next (s.withRsp (some ⟨.illegalOp, false, 0, 0, 0, 0⟩)) ∧
    exec (decode (v ++ d ++ c ++ b ++ a ++ op : CmdWord)) s = exec (.reserved op) s

/-- spec/60_exceptions.md R130: BOUNDS_ERROR exactly where the table says so, and then neither VRAM nor DIRTY changes and every
result is 0. -/
def Obligations.BoundsErrorExactlyOutOfBounds : Prop :=
  ∀ (i : Instr) (s : State), Params.legal s.params → Memory.wf s.vram →
    (raisesBounds s.params i → exec i s = .next (s.withRsp (some boundsResponse))) ∧
    (¬ raisesBounds s.params i → ∃ t r, exec i s = .next t ∧ t.rsp = some r ∧ r.status ≠ .boundsError)

/-- spec/60_exceptions.md section 4 (R137): the state after an erroring command equals the state before it, but for the
response. -/
def Obligations.ErrorsChangeNothing : Prop :=
  ∀ (i : Instr) (s t : State) (r : Response), exec i s = .next t → t.rsp = some r → r.status ≠ .ok →
    t = s.withRsp (some ⟨r.status, false, 0, 0, 0, 0⟩)

/-! ### Frames over all commands -/

/-- spec/10_state.md section 2 and 3 (R22, R23): only SETPX, FILL and RESET write VRAM; only they, MARK and CLRDIRTY write DIRTY; no
command touches the constants or what the host drives. -/
def Obligations.OnlyTheListedCommandsWrite : Prop :=
  ∀ (i : Instr) (s t : State), exec i s = .next t →
    t.params = s.params ∧ t.offered = s.offered ∧ t.pins = s.pins ∧
    (writesVram i = false → t.vram = s.vram) ∧
    (changesNoState i = true → t = s.withRsp t.rsp)

/-- spec/20_memory.md R49: reads have no side effects, and every command repeated at once leaves the state and the response of the
first time. -/
def Obligations.ReadsAreSilentAndCommandsRepeat : Prop :=
  (∀ (i : Instr) (s t : State), exec i s = .next t →
    (i = .info ∨ i = .getdirty ∨ (∃ x y, i = .locate x y) ∨ (∃ x y, i = .getpx x y)) → t = s.withRsp t.rsp) ∧
  (∀ (i : Instr) (s t : State), StateInv s → exec i s = .next t → exec i t = .next t)

/-! ### Invariants -/

/-- spec/00_scope.md R11, spec/10_state.md R22, R23 and R30: the invariant holds at power-on of every legal instance, and so right
after reset. -/
def Obligations.PowerOnMeetsTheInvariant : Prop :=
  (∀ p : Params, Params.legal p → StateInv (State.powerOn p)) ∧ StateInv State.reset

/-- spec/10_state.md section 3 and 5: every step keeps the invariant: VRAM canonical and within bounds, the dirty register legal
(R23), and the bits of no viewport pixel 0 (R30). -/
def Obligations.EveryStepKeepsTheInvariant : Prop :=
  ∀ s t : State, StateInv s → step s = .next t → StateInv t

/-- spec/70_reset_and_hazards.md section 4 (R164) and spec/20_memory.md section 3 (R45): where the invariant holds every command
completes with a response and every step goes on: no access leaves VRAM and nothing stops. -/
def Obligations.EveryCommandResponds : Prop :=
  ∀ s : State, StateInv s →
    (∀ i : Instr, ∃ t r, exec i s = .next t ∧ t.rsp = some r) ∧ (∃ t, step s = .next t)

/-! ### The assembler -/

/-- spec/30_encoding.md R70: the pseudo-commands and their expansions, on a legal instance. -/
def Obligations.PseudoCommandsExpand : Prop :=
  ∀ (p : Params) (x y v : Word), Params.legal p →
    Pseudo.expand p (.clrpx x y) = .setpx x y 0 ∧ Pseudo.expand p (.markpx x y) = .mark x y x y ∧
    (∃ w h : Word, coord w = (p.vw : Int) - 1 ∧ coord h = (p.vh : Int) - 1 ∧
      Pseudo.expand p .markall = .mark 0 0 w h ∧ Pseudo.expand p (.fillall v) = .fill 0 0 w h v) ∧
    Pseudo.expand p .ack = .clrdirty

/-- Lines of assembly and what they assemble to (spec/30_encoding.md section 6, R69). Three lines and their words stand in
spec/95_test_vectors.md (V-ENC, P1, P4); the second line here is V-ENC's `GETPX -1, 0` with a comment after it, which changes
nothing; that a line with a comment alone stands for no word is the model's reading (assumption 6). -/
def Obligations.PrintedLinesAssemble : Prop :=
  let p := Params.example256x64
  assembleLine p ['S', 'E', 'T', 'P', 'X', ' ', '1', ',', ' ', '0', ',', ' ', '0', 'x', 'F'] =
    .ok (some 0x0000000F0000000000000000000000000000000103) ∧
  assembleLine p ['G', 'E', 'T', 'P', 'X', ' ', '-', '1', ',', ' ', '0', ' ', ';', 'c'] =
    .ok (some 0x00000000000000000000000000000000FFFFFFFF02) ∧
  assembleLine p ['G', 'E', 'T', 'D', 'I', 'R', 'T', 'Y'] =
    .ok (some 0x000000000000000000000000000000000000000007) ∧
  assembleLine p ['.', 'w', 'o', 'r', 'd', ' ', '0', 'x', '0', '9'] =
    .ok (some 0x000000000000000000000000000000000000000009) ∧
  assembleLine p [';', ' ', 'c'] = .ok none
end

