-- ==== Sys2Proof/Laws/Memory.lean ====
section
/-! SUPPORT. VRAM as a list of cells: read after write, and that every write keeps the canonical form and the bounds. -/

namespace Sys2Proof.Machine

@[simp] theorem Memory.read_nil (k : Nat) : Memory.read [] k = Memory.powerOnByte := rfl

@[simp] theorem Memory.read_cons (a : Nat) (b : Byte) (m : Memory) (k : Nat) :
    Memory.read ((a, b) :: m) k = if k = a then b else Memory.read m k := rfl

theorem Memory.wf_nil : Memory.wf [] := by simp [Memory.wf]

theorem Memory.wf_cons {a : Nat} {b : Byte} {m : Memory} :
    Memory.wf ((a, b) :: m) ↔ (∀ c ∈ m, a < c.1) ∧ b ≠ Memory.powerOnByte ∧ Memory.wf m := by
  simp only [Memory.wf, List.pairwise_cons, List.forall_mem_cons]
  tauto

/-- An address below every cell reads as the power-on byte. -/
theorem Memory.read_below {m : Memory} {k : Nat} (h : ∀ c ∈ m, k < c.1) : Memory.read m k = Memory.powerOnByte := by
  induction m with
  | nil => rfl
  | cons c m ih =>
    obtain ⟨a, b⟩ := c
    have h1 := h (a, b) (by simp)
    have h2 : Memory.read m k = Memory.powerOnByte := ih fun c hc => h c (by simp [hc])
    simp only [Memory.read_cons, h2]
    rw [if_neg (by simp at h1; omega)]

/-- An address that reads otherwise than at power-on is listed. -/
theorem Memory.mem_of_read {m : Memory} {k : Nat} (h : Memory.read m k ≠ Memory.powerOnByte) :
    ∃ c ∈ m, c.1 = k := by
  induction m with
  | nil => simp at h
  | cons c m ih =>
    obtain ⟨a, b⟩ := c
    by_cases hk : k = a
    · exact ⟨(a, b), by simp, hk.symm⟩
    · simp only [Memory.read_cons, if_neg hk] at h
      obtain ⟨c, hc, e⟩ := ih h
      exact ⟨c, by simp [hc], e⟩

theorem Memory.read_push (k : Nat) (v : Byte) (m : Memory) (h : ∀ c ∈ m, k < c.1) (j : Nat) :
    Memory.read (Memory.push k v m) j = if j = k then v else Memory.read m j := by
  unfold Memory.push
  split
  · next hv =>
    split
    · next hj => rw [hj, hv, Memory.read_below h]
    · rfl
  · rfl

/-- Read after write, on a memory in canonical form. -/
theorem Memory.read_write {m : Memory} (hm : Memory.wf m) (k : Nat) (v : Byte) (j : Nat) :
    Memory.read (Memory.write m k v) j = if j = k then v else Memory.read m j := by
  induction m with
  | nil => exact Memory.read_push k v [] (by simp) j
  | cons c m ih =>
    obtain ⟨a, b⟩ := c
    obtain ⟨hlow, -, hm'⟩ := Memory.wf_cons.mp hm
    unfold Memory.write
    split
    · next h => exact Memory.read_push k v _ (by
        intro c hc
        rcases List.mem_cons.mp hc with rfl | hc
        · exact h
        · exact Nat.lt_trans h (hlow c hc)) j
    · split
      · next h =>
        subst h
        rw [Memory.read_push k v m hlow, Memory.read_cons]
        split <;> rfl
      · next h1 h2 =>
        simp only [Memory.read_cons, ih hm']
        by_cases hj : j = k
        · subst hj; simp [h2]
        · simp [hj]

/-- Every cell of a written memory was there before or is the one written. -/
theorem Memory.mem_write {m : Memory} {k : Nat} {v : Byte} {c : Host.Cell} (h : c ∈ Memory.write m k v) :
    c ∈ m ∨ c.1 = k := by
  have push : ∀ {m' : Memory}, c ∈ Memory.push k v m' → c ∈ m' ∨ c.1 = k := by
    intro m' h
    unfold Memory.push at h
    split at h
    · exact .inl h
    · rcases List.mem_cons.mp h with rfl | h
      · exact .inr rfl
      · exact .inl h
  induction m with
  | nil => exact push h
  | cons d m ih =>
    obtain ⟨a, b⟩ := d
    unfold Memory.write at h
    split at h
    · exact push h
    · split at h
      · exact (push h).imp_left fun h => by simp [h]
      · rcases List.mem_cons.mp h with rfl | h
        · exact .inl (by simp)
        · exact (ih h).imp_left fun h => by simp [h]

theorem Memory.wf_push {k : Nat} {v : Byte} {m : Memory} (hm : Memory.wf m) (h : ∀ c ∈ m, k < c.1) :
    Memory.wf (Memory.push k v m) := by
  unfold Memory.push
  split
  · exact hm
  · next hv => exact Memory.wf_cons.mpr ⟨h, hv, hm⟩

/-- A write keeps the canonical form. -/
theorem Memory.wf_write {m : Memory} (hm : Memory.wf m) (k : Nat) (v : Byte) : Memory.wf (Memory.write m k v) := by
  induction m with
  | nil => exact Memory.wf_push Memory.wf_nil (by simp)
  | cons c m ih =>
    obtain ⟨a, b⟩ := c
    obtain ⟨hlow, hb, hm'⟩ := Memory.wf_cons.mp hm
    unfold Memory.write
    split
    · next h =>
      refine Memory.wf_push hm fun c hc => ?_
      rcases List.mem_cons.mp hc with rfl | hc
      · exact h
      · exact Nat.lt_trans h (hlow c hc)
    · split
      · next h => exact Memory.wf_push hm' (h ▸ hlow)
      · next h1 h2 =>
        refine Memory.wf_cons.mpr ⟨fun c hc => ?_, hb, ih hm'⟩
        rcases Memory.mem_write hc with hc | hc
        · exact hlow c hc
        · omega

/-- A write inside VRAM leaves every cell inside VRAM. -/
theorem Memory.inside_write {p : Params} {m : Memory} {k : Nat} {v : Byte} (hm : vramInside p m)
    (hk : k < Params.vramSize p) : vramInside p (Memory.write m k v) := by
  intro c hc
  rcases Memory.mem_write hc with hc | hc
  · exact hm c hc
  · omega

/-- Canonical memories that read the same everywhere are the same list. -/
theorem Memory.eq_of_read : ∀ {m n : Memory}, Memory.wf m → Memory.wf n →
    (∀ k, Memory.read m k = Memory.read n k) → m = n
  | [], [], _, _, _ => rfl
  | [], (a, b) :: n, _, hn, h => by
    have := h a
    simp only [Memory.read_nil, Memory.read_cons, if_true] at this
    exact absurd this.symm (Memory.wf_cons.mp hn).2.1
  | (a, b) :: m, [], hm, _, h => by
    have := h a
    simp only [Memory.read_nil, Memory.read_cons, if_true] at this
    exact absurd this (Memory.wf_cons.mp hm).2.1
  | (a, b) :: m, (a', b') :: n, hm, hn, h => by
    obtain ⟨hlow, hb, hm'⟩ := Memory.wf_cons.mp hm
    obtain ⟨hlow', hb', hn'⟩ := Memory.wf_cons.mp hn
    have ha : a = a' := by
      rcases Nat.lt_trichotomy a a' with hlt | heq | hgt
      · have h1 := h a
        rw [Memory.read_cons, if_pos rfl, Memory.read_below fun c hc => by
          rcases List.mem_cons.mp hc with rfl | hc
          · exact hlt
          · exact Nat.lt_trans hlt (hlow' c hc)] at h1
        exact absurd h1 hb
      · exact heq
      · have h1 := h a'
        rw [Memory.read_cons (m := n), if_pos rfl, Memory.read_below fun c hc => by
          rcases List.mem_cons.mp hc with rfl | hc
          · exact hgt
          · exact Nat.lt_trans hgt (hlow c hc)] at h1
        exact absurd h1.symm hb'
    subst ha
    have hbb : b = b' := by simpa using h a
    subst hbb
    have : m = n := Memory.eq_of_read hm' hn' fun k => by
      by_cases hk : k = a
      · subst hk; rw [Memory.read_below hlow, Memory.read_below hlow']
      · simpa [hk] using h k
    rw [this]

end Sys2Proof.Machine
end

