-- ==== Sys2Proof/Laws/Access.lean ====
section
/-! SUPPORT. The VRAM accesses: when a byte or multi-byte access completes and what it answers. -/

namespace Sys2Proof.Machine

@[simp] theorem bind_ok {ε α β : Type} (a : α) (f : α → Except ε β) : (Except.ok a).bind f = f a := rfl

@[simp] theorem bind_error {ε α β : Type} (e : ε) (f : α → Except ε β) :
    (Except.error e : Except ε α).bind f = .error e := rfl

/-- A bind that answers ok went through an ok. -/
theorem bind_ok_cases {ε α β : Type} {x : Except ε α} {f : α → Except ε β} {b : β} (h : x.bind f = .ok b) :
    ∃ a, x = .ok a ∧ f a = .ok b := by
  cases x with
  | error e => simp at h
  | ok a => exact ⟨a, rfl, h⟩

theorem readByte_inside {p : Params} {m : Memory} {a : Nat} (h : a < Params.vramSize p) :
    readByte p m a = .ok (Memory.read m a) := if_pos h

theorem writeByte_inside {p : Params} {m : Memory} {a : Nat} {b : Byte} (h : a < Params.vramSize p) :
    writeByte p m a b = .ok (Memory.write m a b) := if_pos h

theorem readByte_ok {p : Params} {m : Memory} {a : Nat} {b : Byte} (h : readByte p m a = .ok b) :
    a < Params.vramSize p ∧ b = Memory.read m a := by
  unfold readByte at h
  split at h
  · next ha => exact ⟨ha, by simpa using h.symm⟩
  · simp at h

theorem writeByte_ok {p : Params} {m m' : Memory} {a : Nat} {b : Byte} (h : writeByte p m a b = .ok m') :
    a < Params.vramSize p ∧ m' = Memory.write m a b := by
  unfold writeByte at h
  split at h
  · next ha => exact ⟨ha, by simpa using h.symm⟩
  · simp at h

/-- `MemRead` of three bytes, the first the most significant. -/
theorem memRead_three {p : Params} {m : Memory} {a : Nat} (h : a + 2 < Params.vramSize p) :
    memRead p m a 3 = .ok (Memory.read m a ++ Memory.read m (a + 1) ++ Memory.read m (a + 2)) := by
  simp only [memRead, bind_ok, readByte_inside (show a + 0 < Params.vramSize p by omega),
    readByte_inside (show a + 1 < Params.vramSize p by omega), readByte_inside h]
  congr 1
  apply BitVec.eq_of_getLsbD_eq
  intro i hi
  simp only [BitVec.getLsbD_append]
  split <;> (try split) <;> (try split) <;> simp_all

/-- `MemWrite` of three bytes. -/
theorem memWrite_three {p : Params} {m : Memory} {a : Nat} {v : BitVec 24} (h : a + 2 < Params.vramSize p) :
    memWrite p m a 3 v =
      .ok (Memory.write (Memory.write (Memory.write m a (v.extractLsb' 16 8)) (a + 1) (v.extractLsb' 8 8))
        (a + 2) (v.extractLsb' 0 8)) := by
  have e2 : BitVec.extractLsb' 0 8 (BitVec.extractLsb' 8 (8 * 1) (BitVec.extractLsb' 8 (8 * 2) v)) =
      v.extractLsb' 16 8 := by
    apply BitVec.eq_of_getLsbD_eq
    intro i hi
    have : 8 + i < 16 := by omega
    simp [hi, this, ← Nat.add_assoc]
  have e1 : BitVec.extractLsb' 0 8 (BitVec.extractLsb' 8 (8 * 2) v) = v.extractLsb' 8 8 := by
    apply BitVec.eq_of_getLsbD_eq
    intro i hi
    have : i < 16 := by omega
    simp [hi, this]
  simp only [memWrite, bind_ok, writeByte_inside (show a + 0 < Params.vramSize p by omega),
    writeByte_inside (show a + 1 < Params.vramSize p by omega), writeByte_inside h]
  rw [← e2, ← e1]
  rfl

/-- What a completed `MemWrite` leaves: only its own bytes differ, and the form and the bounds are kept. -/
theorem memWrite_ok {p : Params} {m m' : Memory} {a : Nat} :
    ∀ {n : Nat} {v : BitVec (8 * n)}, memWrite p m a n v = .ok m' → Memory.wf m →
      Memory.wf m' ∧ (vramInside p m → vramInside p m') ∧
        ∀ j, j < a ∨ a + n ≤ j → Memory.read m' j = Memory.read m j := by
  intro n
  induction n generalizing m' with
  | zero =>
    intro v h hm
    simp only [memWrite, Except.ok.injEq] at h
    subst h
    exact ⟨hm, id, fun _ _ => rfl⟩
  | succ n ih =>
    intro v h hm
    obtain ⟨m1, h1, h2⟩ := bind_ok_cases h
    obtain ⟨hlt, rfl⟩ := writeByte_ok h2
    obtain ⟨w1, i1, r1⟩ := ih h1 hm
    refine ⟨Memory.wf_write w1 _ _, fun hi => Memory.inside_write (i1 hi) hlt, fun j hj => ?_⟩
    rw [Memory.read_write w1, if_neg (by omega)]
    exact r1 j (by omega)

end Sys2Proof.Machine
end

