-- ==== Sys2Proof/Laws/Decode.lean ====
section
/-! SUPPORT. The six fields of a CMD word (spec/30_encoding.md R60). -/

namespace Sys2Proof

/-- The bits of six fields side by side, at any widths. -/
theorem getLsbD_six {n0 n1 n2 n3 n4 n5 : Nat} (x0 : BitVec n0) (x1 : BitVec n1) (x2 : BitVec n2) (x3 : BitVec n3)
    (x4 : BitVec n4) (x5 : BitVec n5) (k : Nat) :
    (x5 ++ x4 ++ x3 ++ x2 ++ x1 ++ x0).getLsbD k =
      if k < n0 then x0.getLsbD k else if k - n0 < n1 then x1.getLsbD (k - n0)
      else if k - n0 - n1 < n2 then x2.getLsbD (k - n0 - n1)
      else if k - n0 - n1 - n2 < n3 then x3.getLsbD (k - n0 - n1 - n2)
      else if k - n0 - n1 - n2 - n3 < n4 then x4.getLsbD (k - n0 - n1 - n2 - n3)
      else x5.getLsbD (k - n0 - n1 - n2 - n3 - n4) := by
  simp only [BitVec.getLsbD_append]

/-- The bits of a CMD word by field: OP in 7:0, A in 39:8, B in 71:40, C in 103:72, D in 135:104, V in 167:136. -/
theorem ofFields_getLsbD (op : Byte) (a b c d v : Word) (k : Nat) :
    (CmdWord.ofFields op a b c d v).getLsbD k =
      if k < 8 then op.getLsbD k else if k - 8 < 32 then a.getLsbD (k - 8) else if k - 8 - 32 < 32 then
        b.getLsbD (k - 8 - 32)
      else if k - 8 - 32 - 32 < 32 then c.getLsbD (k - 8 - 32 - 32)
      else if k - 8 - 32 - 32 - 32 < 32 then d.getLsbD (k - 8 - 32 - 32 - 32)
      else v.getLsbD (k - 8 - 32 - 32 - 32 - 32) :=
  getLsbD_six op a b c d v k

@[simp] theorem op_ofFields (op : Byte) (a b c d v : Word) : CmdWord.op (CmdWord.ofFields op a b c d v) = op := by
  apply BitVec.eq_of_getLsbD_eq
  intro k hk
  simp only [CmdWord.op, BitVec.getLsbD_extractLsb', ofFields_getLsbD]
  rw [if_pos (by omega)]
  simp [hk]

@[simp] theorem a_ofFields (op : Byte) (a b c d v : Word) : CmdWord.a (CmdWord.ofFields op a b c d v) = a := by
  apply BitVec.eq_of_getLsbD_eq
  intro k hk
  simp only [CmdWord.a, BitVec.getLsbD_extractLsb', ofFields_getLsbD]
  rw [if_neg (by omega), if_pos (by omega)]
  simp [hk]

@[simp] theorem b_ofFields (op : Byte) (a b c d v : Word) : CmdWord.b (CmdWord.ofFields op a b c d v) = b := by
  apply BitVec.eq_of_getLsbD_eq
  intro k hk
  simp only [CmdWord.b, BitVec.getLsbD_extractLsb', ofFields_getLsbD]
  rw [if_neg (by omega), if_neg (by omega), if_pos (by omega)]
  simp [hk, Nat.sub_sub]

@[simp] theorem c_ofFields (op : Byte) (a b c d v : Word) : CmdWord.c (CmdWord.ofFields op a b c d v) = c := by
  apply BitVec.eq_of_getLsbD_eq
  intro k hk
  simp only [CmdWord.c, BitVec.getLsbD_extractLsb', ofFields_getLsbD]
  rw [if_neg (by omega), if_neg (by omega), if_neg (by omega), if_pos (by omega)]
  simp [hk, Nat.sub_sub]

@[simp] theorem d_ofFields (op : Byte) (a b c d v : Word) : CmdWord.d (CmdWord.ofFields op a b c d v) = d := by
  apply BitVec.eq_of_getLsbD_eq
  intro k hk
  simp only [CmdWord.d, BitVec.getLsbD_extractLsb', ofFields_getLsbD]
  rw [if_neg (by omega), if_neg (by omega), if_neg (by omega), if_neg (by omega), if_pos (by omega)]
  simp [hk, Nat.sub_sub]

@[simp] theorem v_ofFields (op : Byte) (a b c d v : Word) : CmdWord.v (CmdWord.ofFields op a b c d v) = v := by
  apply BitVec.eq_of_getLsbD_eq
  intro k hk
  simp only [CmdWord.v, BitVec.getLsbD_extractLsb', ofFields_getLsbD]
  rw [if_neg (by omega), if_neg (by omega), if_neg (by omega), if_neg (by omega), if_neg (by omega)]
  simp [hk, Nat.sub_sub]

/-- Decoding a word by its fields (spec/30_encoding.md R65). -/
theorem decode_ofFields (op : Byte) (a b c d v : Word) : decode (CmdWord.ofFields op a b c d v) =
    match op.toNat with
    | 0 => .info
    | 1 => .locate a b
    | 2 => .getpx a b
    | 3 => .setpx a b v
    | 4 => .fill a b c d v
    | 5 => .mark a b c d
    | 6 => .clrdirty
    | 7 => .getdirty
    | 8 => .reset
    | _ + 9 => .reserved op := by
  simp only [decode, op_ofFields, a_ofFields, b_ofFields, c_ofFields, d_ofFields, v_ofFields] <;> rfl

/-- A word whose op code is 9 or more is reserved (spec/30_encoding.md R67). -/
theorem decode_reserved {w : CmdWord} (h : 9 ≤ (CmdWord.op w).toNat) : decode w = .reserved (CmdWord.op w) := by
  obtain ⟨n, hn⟩ : ∃ n, (CmdWord.op w).toNat = n + 9 := ⟨(CmdWord.op w).toNat - 9, by omega⟩
  simp [decode, hn]

end Sys2Proof
end

