-- ==== Sys2Proof/Laws/State.lean ====
section
/-! SUPPORT. Every field of every update of State, so that no proof unfolds a record update. -/

namespace Sys2Proof.Machine

@[simp] theorem State.withVram_params (s : State) (m : Memory) : (s.withVram m).params = s.params := rfl
@[simp] theorem State.withVram_vram (s : State) (m : Memory) : (s.withVram m).vram = m := rfl
@[simp] theorem State.withVram_dirty (s : State) (m : Memory) : (s.withVram m).dirty = s.dirty := rfl
@[simp] theorem State.withVram_rsp (s : State) (m : Memory) : (s.withVram m).rsp = s.rsp := rfl
@[simp] theorem State.withVram_offered (s : State) (m : Memory) : (s.withVram m).offered = s.offered := rfl
@[simp] theorem State.withVram_pins (s : State) (m : Memory) : (s.withVram m).pins = s.pins := rfl

@[simp] theorem State.withDirty_params (s : State) (d : DirtyReg) : (s.withDirty d).params = s.params := rfl
@[simp] theorem State.withDirty_vram (s : State) (d : DirtyReg) : (s.withDirty d).vram = s.vram := rfl
@[simp] theorem State.withDirty_dirty (s : State) (d : DirtyReg) : (s.withDirty d).dirty = d := rfl
@[simp] theorem State.withDirty_rsp (s : State) (d : DirtyReg) : (s.withDirty d).rsp = s.rsp := rfl
@[simp] theorem State.withDirty_offered (s : State) (d : DirtyReg) : (s.withDirty d).offered = s.offered := rfl
@[simp] theorem State.withDirty_pins (s : State) (d : DirtyReg) : (s.withDirty d).pins = s.pins := rfl

@[simp] theorem State.withRsp_params (s : State) (r : Option Response) : (s.withRsp r).params = s.params := rfl
@[simp] theorem State.withRsp_vram (s : State) (r : Option Response) : (s.withRsp r).vram = s.vram := rfl
@[simp] theorem State.withRsp_dirty (s : State) (r : Option Response) : (s.withRsp r).dirty = s.dirty := rfl
@[simp] theorem State.withRsp_rsp (s : State) (r : Option Response) : (s.withRsp r).rsp = r := rfl
@[simp] theorem State.withRsp_offered (s : State) (r : Option Response) : (s.withRsp r).offered = s.offered := rfl
@[simp] theorem State.withRsp_pins (s : State) (r : Option Response) : (s.withRsp r).pins = s.pins := rfl

@[simp] theorem State.withOffered_params (s : State) (ws : List CmdWord) : (s.withOffered ws).params = s.params := rfl
@[simp] theorem State.withOffered_vram (s : State) (ws : List CmdWord) : (s.withOffered ws).vram = s.vram := rfl
@[simp] theorem State.withOffered_dirty (s : State) (ws : List CmdWord) : (s.withOffered ws).dirty = s.dirty := rfl
@[simp] theorem State.withOffered_rsp (s : State) (ws : List CmdWord) : (s.withOffered ws).rsp = s.rsp := rfl
@[simp] theorem State.withOffered_offered (s : State) (ws : List CmdWord) : (s.withOffered ws).offered = ws := rfl
@[simp] theorem State.withOffered_pins (s : State) (ws : List CmdWord) : (s.withOffered ws).pins = s.pins := rfl

@[simp] theorem State.withPins_params (s : State) (ps : List Pins) : (s.withPins ps).params = s.params := rfl
@[simp] theorem State.withPins_vram (s : State) (ps : List Pins) : (s.withPins ps).vram = s.vram := rfl
@[simp] theorem State.withPins_dirty (s : State) (ps : List Pins) : (s.withPins ps).dirty = s.dirty := rfl
@[simp] theorem State.withPins_rsp (s : State) (ps : List Pins) : (s.withPins ps).rsp = s.rsp := rfl
@[simp] theorem State.withPins_offered (s : State) (ps : List Pins) : (s.withPins ps).offered = s.offered := rfl
@[simp] theorem State.withPins_pins (s : State) (ps : List Pins) : (s.withPins ps).pins = ps := rfl

@[simp] theorem State.respond_params (s : State) (r : Response) : (s.respond r).params = s.params := rfl
@[simp] theorem State.respond_vram (s : State) (r : Response) : (s.respond r).vram = s.vram := rfl
@[simp] theorem State.respond_dirty (s : State) (r : Response) : (s.respond r).dirty = s.dirty := rfl
@[simp] theorem State.respond_rsp (s : State) (r : Response) : (s.respond r).rsp = some r := rfl
@[simp] theorem State.respond_offered (s : State) (r : Response) : (s.respond r).offered = s.offered := rfl
@[simp] theorem State.respond_pins (s : State) (r : Response) : (s.respond r).pins = s.pins := rfl

@[simp] theorem State.raise_params (s : State) (st : Status) : (s.raise st).params = s.params := rfl
@[simp] theorem State.raise_vram (s : State) (st : Status) : (s.raise st).vram = s.vram := rfl
@[simp] theorem State.raise_dirty (s : State) (st : Status) : (s.raise st).dirty = s.dirty := rfl
@[simp] theorem State.raise_rsp (s : State) (st : Status) : (s.raise st).rsp = some (Response.error st) := rfl
@[simp] theorem State.raise_offered (s : State) (st : Status) : (s.raise st).offered = s.offered := rfl
@[simp] theorem State.raise_pins (s : State) (st : Status) : (s.raise st).pins = s.pins := rfl

@[simp] theorem State.tick_params (s : State) : (s.tick).params = s.params := rfl
@[simp] theorem State.tick_vram (s : State) : (s.tick).vram = s.vram := rfl
@[simp] theorem State.tick_dirty (s : State) : (s.tick).dirty = s.dirty := rfl
@[simp] theorem State.tick_rsp (s : State) : (s.tick).rsp = s.rsp := rfl
@[simp] theorem State.tick_offered (s : State) : (s.tick).offered = s.offered := rfl
@[simp] theorem State.tick_pins (s : State) : (s.tick).pins = s.pins.tail := rfl

@[simp] theorem State.takeResponse_params (s : State) : (s.takeResponse).params = s.params := rfl
@[simp] theorem State.takeResponse_vram (s : State) : (s.takeResponse).vram = s.vram := rfl
@[simp] theorem State.takeResponse_dirty (s : State) : (s.takeResponse).dirty = s.dirty := rfl
@[simp] theorem State.takeResponse_rsp (s : State) : (s.takeResponse).rsp = none := rfl
@[simp] theorem State.takeResponse_offered (s : State) : (s.takeResponse).offered = s.offered := rfl
@[simp] theorem State.takeResponse_pins (s : State) : (s.takeResponse).pins = s.pins := rfl

@[simp] theorem State.accept_params (s : State) : (s.accept).params = s.params := rfl
@[simp] theorem State.accept_vram (s : State) : (s.accept).vram = s.vram := rfl
@[simp] theorem State.accept_dirty (s : State) : (s.accept).dirty = s.dirty := rfl
@[simp] theorem State.accept_rsp (s : State) : (s.accept).rsp = s.rsp := rfl
@[simp] theorem State.accept_offered (s : State) : (s.accept).offered = s.offered.tail := rfl
@[simp] theorem State.accept_pins (s : State) : (s.accept).pins = s.pins := rfl

@[simp] theorem State.powerOn_params (p : Params) : (State.powerOn p).params = p := rfl
@[simp] theorem State.powerOn_vram (p : Params) : (State.powerOn p).vram = [] := rfl
@[simp] theorem State.powerOn_dirty (p : Params) : (State.powerOn p).dirty = DirtyReg.fullViewport p := rfl
@[simp] theorem State.powerOn_rsp (p : Params) : (State.powerOn p).rsp = none := rfl
@[simp] theorem State.powerOn_offered (p : Params) : (State.powerOn p).offered = [] := rfl
@[simp] theorem State.powerOn_pins (p : Params) : (State.powerOn p).pins = [] := rfl

@[simp] theorem resetSequence_params (s : State) : (resetSequence s).params = s.params := rfl
@[simp] theorem resetSequence_vram (s : State) : (resetSequence s).vram = [] := rfl
@[simp] theorem resetSequence_rsp (s : State) : (resetSequence s).rsp = s.rsp := rfl
@[simp] theorem resetSequence_offered (s : State) : (resetSequence s).offered = s.offered := rfl
@[simp] theorem resetSequence_pins (s : State) : (resetSequence s).pins = s.pins := rfl

/-- Two states are the same when their fields are. -/
theorem State.same {s t : State} (hp : s.params = t.params) (hv : s.vram = t.vram) (hd : s.dirty = t.dirty)
    (hr : s.rsp = t.rsp) (ho : s.offered = t.offered) (hi : s.pins = t.pins) : s = t := by
  cases s; cases t; simp_all

end Sys2Proof.Machine
end

