-- ==== Sys2Proof/Laws/Dirty.lean ====
section
/-! SUPPORT. The dirty-region register: what a rectangle leaves in it, clamping, and merging (spec/41_displaymemory.md R120,
R121). -/

namespace Sys2Proof.Machine

/-- The clamped rectangle lies in the viewport and is ordered (R120). -/
theorem clampRect_inside {p : Params} (hw : 1 ≤ p.vw) (hh : 1 ≤ p.vh) (x0 y0 x1 y1 : Int) :
    0 ≤ (clampRect p x0 y0 x1 y1).x0 ∧ (clampRect p x0 y0 x1 y1).x0 ≤ (clampRect p x0 y0 x1 y1).x1 ∧
    (clampRect p x0 y0 x1 y1).x1 ≤ (p.vw : Int) - 1 ∧
    0 ≤ (clampRect p x0 y0 x1 y1).y0 ∧ (clampRect p x0 y0 x1 y1).y0 ≤ (clampRect p x0 y0 x1 y1).y1 ∧
    (clampRect p x0 y0 x1 y1).y1 ≤ (p.vh : Int) - 1 := by
  simp only [clampRect, clamp]
  omega

/-- A rectangle inside the viewport is its own clamp. -/
theorem clampRect_of_inViewport {p : Params} {x0 y0 x1 y1 : Int} (h0 : inViewport p x0 y0) (h1 : inViewport p x1 y1)
    (hx : x0 ≤ x1) (hy : y0 ≤ y1) : clampRect p x0 y0 x1 y1 = { x0 := x0, y0 := y0, x1 := x1, y1 := y1 } := by
  obtain ⟨a1, a2, a3, a4⟩ := h0
  obtain ⟨b1, b2, b3, b4⟩ := h1
  simp only [clampRect, clamp, Rect.mk.injEq]
  omega

theorem coord_ofInt {n : Int} (h0 : 0 ≤ n) (h1 : n < 2 ^ 31) : coord (BitVec.ofInt 32 n) = n := by
  unfold coord
  rw [BitVec.toInt_ofInt]
  exact Int.bmod_eq_of_le (by omega) (by omega)

/-- A rectangle of small coordinates is read back from the register. -/
theorem region_ofRect {r : Rect} (h : 0 ≤ r.x0 ∧ r.x0 < 2 ^ 31 ∧ 0 ≤ r.y0 ∧ r.y0 < 2 ^ 31 ∧ 0 ≤ r.x1 ∧ r.x1 < 2 ^ 31 ∧
    0 ≤ r.y1 ∧ r.y1 < 2 ^ 31) : (DirtyReg.ofRect r).region = some r := by
  obtain ⟨a1, a2, b1, b2, c1, c2, d1, d2⟩ := h
  simp [DirtyReg.region, DirtyReg.ofRect, coord_ofInt a1 a2, coord_ofInt b1 b2, coord_ofInt c1 c2, coord_ofInt d1 d2]

@[simp] theorem region_empty : DirtyReg.empty.region = none := rfl

/-- The region of a valid register (R23). -/
theorem region_of_valid {d : DirtyReg} (h : d.valid = true) :
    d.region = some { x0 := coord d.x0, y0 := coord d.y0, x1 := coord d.x1, y1 := coord d.y1 } := if_pos h

theorem region_some {d : DirtyReg} {r : Rect} (h : d.region = some r) :
    d.valid = true ∧ r = { x0 := coord d.x0, y0 := coord d.y0, x1 := coord d.x1, y1 := coord d.y1 } := by
  unfold DirtyReg.region at h
  split at h
  · next hv => exact ⟨hv, by simpa using h.symm⟩
  · simp at h

theorem region_none {d : DirtyReg} (h : d.region = none) : d.valid = false := by
  unfold DirtyReg.region at h
  split at h
  · simp at h
  · next hv => simpa using hv

/-- A legal register's region lies in the viewport (R23). -/
theorem dirtyLegal_region {p : Params} {d : DirtyReg} {r : Rect} (hd : dirtyLegal p d) (h : d.region = some r) :
    0 ≤ r.x0 ∧ r.x0 ≤ r.x1 ∧ r.x1 ≤ (p.vw : Int) - 1 ∧ 0 ≤ r.y0 ∧ r.y0 ≤ r.y1 ∧ r.y1 ≤ (p.vh : Int) - 1 := by
  obtain ⟨hv, rfl⟩ := region_some h
  exact hd.1 hv

/-- The region marking leaves: the clamped rectangle, merged with the region there was (R121). -/
theorem region_markDirty {p : Params} {d : DirtyReg} (hl : Params.legal p) (hd : dirtyLegal p d) (x0 y0 x1 y1 : Int) :
    (markDirty p d x0 y0 x1 y1).region =
      some (match d.region with
        | none => clampRect p x0 y0 x1 y1
        | some r => r.union (clampRect p x0 y0 x1 y1)) := by
  obtain ⟨l1, l2, l3, l4, l5, l6, l7, l8, l9⟩ := hl
  have hc := clampRect_inside l3 l5 x0 y0 x1 y1
  unfold markDirty
  cases hr : d.region with
  | none => exact region_ofRect (by omega)
  | some r =>
    have := dirtyLegal_region hd hr
    refine region_ofRect ?_
    simp only [Rect.union]
    omega

/-- The register marking leaves is legal (R23). -/
theorem dirtyLegal_markDirty {p : Params} {d : DirtyReg} (hl : Params.legal p) (hd : dirtyLegal p d)
    (x0 y0 x1 y1 : Int) : dirtyLegal p (markDirty p d x0 y0 x1 y1) := by
  have hreg := region_markDirty hl hd x0 y0 x1 y1
  obtain ⟨hv, e⟩ := region_some hreg
  have hc := clampRect_inside hl.2.2.1 hl.2.2.2.2.1 x0 y0 x1 y1
  refine ⟨fun _ => ?_, fun h => by simp [h] at hv⟩
  cases hr : d.region with
  | none =>
    rw [hr] at e
    have e1 := congrArg Rect.x0 e
    have e2 := congrArg Rect.y0 e
    have e3 := congrArg Rect.x1 e
    have e4 := congrArg Rect.y1 e
    simp only at e1 e2 e3 e4
    omega
  | some r =>
    have := dirtyLegal_region hd hr
    rw [hr] at e
    have e1 := congrArg Rect.x0 e
    have e2 := congrArg Rect.y0 e
    have e3 := congrArg Rect.x1 e
    have e4 := congrArg Rect.y1 e
    simp only [Rect.union] at e1 e2 e3 e4
    omega

theorem dirtyLegal_empty (p : Params) : dirtyLegal p DirtyReg.empty := by
  simp [dirtyLegal, DirtyReg.empty]

/-- The reset sequence leaves the power-on register (spec/70_reset_and_hazards.md R150, R151). -/
theorem resetSequence_dirty {s : State} (hl : Params.legal s.params) :
    (resetSequence s).dirty = DirtyReg.fullViewport s.params := by
  obtain ⟨l1, l2, l3, l4, l5, l6, l7, l8, l9⟩ := hl
  have hc : clampRect s.params 0 0 ((s.params.vw : Int) - 1) ((s.params.vh : Int) - 1) =
      { x0 := 0, y0 := 0, x1 := ((s.params.vw - 1 : Nat) : Int), y1 := ((s.params.vh - 1 : Nat) : Int) } := by
    simp only [clampRect, clamp, Rect.mk.injEq]
    omega
  show markDirty s.params DirtyReg.empty 0 0 _ _ = _
  simp only [markDirty, region_empty, hc, DirtyReg.ofRect, DirtyReg.fullViewport, BitVec.ofInt_natCast]
  rfl

/-- The power-on register is legal (R23). -/
theorem dirtyLegal_fullViewport {p : Params} (hl : Params.legal p) : dirtyLegal p (DirtyReg.fullViewport p) := by
  have h := dirtyLegal_markDirty hl (dirtyLegal_empty p) 0 0 ((p.vw : Int) - 1) ((p.vh : Int) - 1)
  have e : markDirty p DirtyReg.empty 0 0 ((p.vw : Int) - 1) ((p.vh : Int) - 1) = DirtyReg.fullViewport p :=
    resetSequence_dirty (s := State.powerOn p) hl
  rwa [e] at h

/-- Marking the same rectangle again changes nothing (spec/20_memory.md R49). -/
theorem markDirty_again {p : Params} {d : DirtyReg} (hl : Params.legal p) (hd : dirtyLegal p d) (x0 y0 x1 y1 : Int) :
    markDirty p (markDirty p d x0 y0 x1 y1) x0 y0 x1 y1 = markDirty p d x0 y0 x1 y1 := by
  have hreg := region_markDirty hl hd x0 y0 x1 y1
  have self : ∀ r c : Rect, (r.union c).union c = r.union c := by
    intro r c
    simp only [Rect.union, Rect.mk.injEq]
    omega
  have same : ∀ c : Rect, c.union c = c := by
    intro c
    cases c
    simp [Rect.union]
  rw [markDirty, hreg]
  unfold markDirty
  cases d.region with
  | none => simp only [same]
  | some r => simp only [self]

end Sys2Proof.Machine
end

