-- ==== Sys2Proof/Laws/PixelPlane.lean ====
section
/-! SUPPORT. PixelPlane bit by bit: where a pixel lies, what reading it answers and what writing it leaves. -/

namespace Sys2Proof.Machine

/-- Two places of a plane with rows of `w` bytes are the same only in the same row at the same column. -/
theorem row_place_inj {w y q y' q' : Nat} (hq : q < w) (hq' : q' < w) (h : y * w + q = y' * w + q') :
    y = y' ∧ q = q' := by
  have hw : 0 < w := by omega
  have e : y = y' := by
    have h1 : (q + y * w) / w = y := by rw [Nat.add_mul_div_right _ _ hw, Nat.div_eq_of_lt hq]; omega
    have h2 : (q' + y' * w) / w = y' := by rw [Nat.add_mul_div_right _ _ hw, Nat.div_eq_of_lt hq']; omega
    rw [← h1, ← h2]; congr 1; omega
  subst e
  exact ⟨rfl, by omega⟩

theorem row_place_lt {w h y q : Nat} (hq : q < w) (hy : y < h) : y * w + q < w * h := by
  calc y * w + q < y * w + w := by omega
    _ = (y + 1) * w := by rw [Nat.succ_mul]
    _ ≤ h * w := Nat.mul_le_mul_right _ hy
    _ = w * h := Nat.mul_comm _ _

theorem locate_inPlane {p : Params} {x y : Int} (h : inPlane p x y) :
    locate p x y = .ok (layout p x.toNat y.toNat) := by
  unfold locate
  rw [if_neg]
  obtain ⟨h1, h2, h3, h4⟩ := h
  omega

theorem locate_outside {p : Params} {x y : Int} (h : ¬ inPlane p x y) : locate p x y = .error .boundsError := by
  unfold locate
  rw [if_pos]
  simp only [inPlane, not_and_or, not_le, not_lt] at h
  omega

theorem bitsPerPixel_pos (f : PixelFormat) : 0 < bitsPerPixel f := by cases f <;> decide

theorem fieldMask_getLsbD (f : PixelFormat) (i : Nat) : (fieldMask f).getLsbD i = decide (i < bitsPerPixel f) := by
  have h : fieldMask f = BitVec.ofNat 32 (2 ^ bitsPerPixel f - 1) := by cases f <;> rfl
  have hb : bitsPerPixel f ≤ 24 := by cases f <;> decide
  rw [h, BitVec.getLsbD_ofNat, Nat.testBit_two_pow_sub_one]
  by_cases hi : i < bitsPerPixel f
  · simp [hi]; omega
  · simp [hi]

theorem trunc_getLsbD (f : PixelFormat) (v : Word) (i : Nat) :
    (trunc f v).getLsbD i = (decide (i < bitsPerPixel f) && v.getLsbD i) := by
  simp [trunc, fieldMask_getLsbD, Bool.and_comm]

/-- The bits of an extracted field. -/
theorem extractField_getLsbD (f : PixelFormat) (sub : Nat) (byte : Byte) (i : Nat) :
    (extractField f sub byte).getLsbD i = (decide (i < bitsPerPixel f) && byte.getLsbD (shift f sub + i)) := by
  have hb : bitsPerPixel f ≤ 24 := by cases f <;> decide
  simp only [extractField, BitVec.getLsbD_and, BitVec.getLsbD_setWidth, BitVec.getLsbD_ushiftRight, fieldMask_getLsbD]
  by_cases hi : i < bitsPerPixel f
  · have : i < 32 := by omega
    simp [hi, this]
  · simp [hi]

/-- The bits of a byte with a field merged in: the field's own take the value's, the others stay. -/
theorem mergeField_getLsbD (f : PixelFormat) (sub : Nat) (old : Byte) (v : Word) {j : Nat} (hj : j < 8) :
    (mergeField f sub old (trunc f v)).getLsbD j =
      if shift f sub ≤ j ∧ j < shift f sub + bitsPerPixel f then v.getLsbD (j - shift f sub) else old.getLsbD j := by
  have h32 : j < 32 := by omega
  simp only [mergeField, mask, BitVec.getLsbD_or, BitVec.getLsbD_and, BitVec.getLsbD_not, BitVec.getLsbD_setWidth,
    BitVec.getLsbD_shiftLeft, fieldMask_getLsbD, trunc_getLsbD, hj, h32]
  by_cases h1 : j < shift f sub
  · have : ¬ (shift f sub ≤ j ∧ j < shift f sub + bitsPerPixel f) := by omega
    simp [h1, this]
  · by_cases h2 : j - shift f sub < bitsPerPixel f
    · have : shift f sub ≤ j ∧ j < shift f sub + bitsPerPixel f := by omega
      simp [h1, h2, this]
    · have : ¬ (shift f sub ≤ j ∧ j < shift f sub + bitsPerPixel f) := by omega
      simp [h1, h2, this]

/-- Which bit of a pixel's value stands at the `j`-th bit of its place in the row: the same one in a sub-byte format, and with
the most significant byte first in RGB24. -/
def valueBit (f : PixelFormat) (j : Nat) : Nat :=
  match f with
  | .packedNibble => j
  | .packedBit => j
  | .rgb24 => 8 * (2 - j / 8) + j % 8

theorem valueBit_lt {f : PixelFormat} {j : Nat} (h : j < bitsPerPixel f) : valueBit f j < bitsPerPixel f := by
  cases f with
  | packedNibble => exact h
  | packedBit => exact h
  | rgb24 => simp only [valueBit, bitsPerPixel] at *; omega

theorem valueBit_valueBit {f : PixelFormat} {j : Nat} (h : j < bitsPerPixel f) : valueBit f (valueBit f j) = j := by
  cases f with
  | packedNibble => rfl
  | packedBit => rfl
  | rgb24 => simp only [valueBit, bitsPerPixel] at *; omega

theorem stride_packedNibble {p : Params} (h : p.format = .packedNibble) : Params.stride p = (p.pw + 1) / 2 := by
  simp only [Params.stride, h, bitsPerPixel]; omega

theorem stride_packedBit {p : Params} (h : p.format = .packedBit) : Params.stride p = (p.pw + 7) / 8 := by
  simp only [Params.stride, h, bitsPerPixel]; omega

theorem stride_rgb24 {p : Params} (h : p.format = .rgb24) : Params.stride p = 3 * p.pw := by
  simp only [Params.stride, h, bitsPerPixel]; omega

/-- The row's bits hold the row's pixels. -/
theorem pixel_bits_in_row {p : Params} {x : Nat} (hx : x < p.pw) :
    (x + 1) * bitsPerPixel p.format ≤ 8 * Params.stride p := by
  have h : (x + 1) * bitsPerPixel p.format ≤ p.pw * bitsPerPixel p.format := Nat.mul_le_mul_right _ hx
  unfold Params.stride
  omega

/-- The bytes of a pixel lie in its own row (spec/20_memory.md R45). -/
theorem pixelBytes_in_row {p : Params} {x y a : Nat} (hx : x < p.pw) (ha : a ∈ pixelBytes p x y) :
    ∃ q < Params.stride p, a = y * Params.stride p + q := by
  have hrow := pixel_bits_in_row hx
  obtain ⟨f, pw, ph, vw, vh, cd⟩ := p
  cases f <;> simp only [pixelBytes, layout, bitsPerPixel, List.mem_cons, List.not_mem_nil, or_false] at *
  · exact ⟨x / 2, by omega, ha⟩
  · exact ⟨x / 8, by omega, ha⟩
  · rcases ha with ha | ha | ha
    · exact ⟨3 * x, by omega, ha⟩
    · exact ⟨3 * x + 1, by omega, by omega⟩
    · exact ⟨3 * x + 2, by omega, by omega⟩

/-- The bytes of a plane pixel lie in VRAM (spec/20_memory.md R45). -/
theorem pixelBytes_inside {p : Params} {x y a : Nat} (hx : x < p.pw) (hy : y < p.ph) (ha : a ∈ pixelBytes p x y) :
    a < Params.vramSize p := by
  obtain ⟨q, hq, rfl⟩ := pixelBytes_in_row hx ha
  exact row_place_lt hq hy

/-- Reading a plane pixel answers its value, whose bits are the bits of its place. -/
theorem readPixel_inPlane {p : Params} {m : Memory} {x y : Int} (h : inPlane p x y) :
    ∃ v, readPixel p m x y = .ok v ∧ ∀ i, v.getLsbD i =
      (decide (i < bitsPerPixel p.format) &&
        rowBit p m y.toNat (x.toNat * bitsPerPixel p.format + valueBit p.format i)) := by
  have hx : x.toNat < p.pw := by obtain ⟨h1, h2, h3, h4⟩ := h; omega
  have hy : y.toNat < p.ph := by obtain ⟨h1, h2, h3, h4⟩ := h; omega
  have hin := fun a => pixelBytes_inside (a := a) hx hy
  unfold readPixel
  rw [locate_inPlane h, bind_ok]
  generalize x.toNat = X at *
  generalize y.toNat = Y at *
  obtain ⟨f, pw, ph, vw, vh, cd⟩ := p
  cases f
  · simp only [readSubByte, layout, pixelBytes, List.mem_singleton, forall_eq] at hin ⊢
    rw [readByte_inside hin, bind_ok]
    refine ⟨_, rfl, fun i => ?_⟩
    rw [extractField_getLsbD]
    by_cases hi : i < 4
    · have e1 : (X * 4 + i) / 8 = X / 2 := by omega
      have e2 : (X * 4 + i) % 8 = 4 * (X % 2) + i := by omega
      simp [bitsPerPixel, hi, rowBit, valueBit, shift, e1, e2]
    · simp [bitsPerPixel, hi]
  · simp only [readSubByte, layout, pixelBytes, List.mem_singleton, forall_eq] at hin ⊢
    rw [readByte_inside hin, bind_ok]
    refine ⟨_, rfl, fun i => ?_⟩
    rw [extractField_getLsbD]
    by_cases hi : i < 1
    · have hi' : i = 0 := by omega
      subst hi'
      simp [bitsPerPixel, rowBit, valueBit, shift]
    · simp [bitsPerPixel, hi]
  · simp only [layout, pixelBytes, List.mem_cons, List.not_mem_nil, or_false, forall_eq_or_imp, forall_eq] at hin ⊢
    rw [memRead_three hin.2.2, bind_ok]
    refine ⟨_, rfl, fun i => ?_⟩
    by_cases hi : i < 24
    · have e1 : (X * 24 + (8 * (2 - i / 8) + i % 8)) / 8 = 3 * X + (2 - i / 8) := by omega
      have e2 : (X * 24 + (8 * (2 - i / 8) + i % 8)) % 8 = i % 8 := by omega
      have h32 : i < 32 := by omega
      simp only [bitsPerPixel, valueBit, rowBit, e1, e2, hi, h32, decide_true, Bool.true_and,
        BitVec.getLsbD_setWidth, BitVec.getLsbD_append]
      rcases (by omega : i / 8 = 0 ∨ i / 8 = 1 ∨ i / 8 = 2) with hd | hd | hd
      · have : i < 8 := by omega
        have h8 : i % 8 = i := by omega
        simp [this, hd, h8, Nat.add_assoc]
      · have h1 : ¬ i < 8 := by omega
        have h2 : i - 8 < 8 := by omega
        have h8 : i % 8 = i - 8 := by omega
        simp [h1, h2, hd, h8, Nat.add_assoc]
      · have h1 : ¬ i < 8 := by omega
        have h2 : ¬ i - 8 < 8 := by omega
        have h8 : i % 8 = i - 8 - 8 := by omega
        simp [h1, h2, hd, h8]
    · have h24 : i < 32 → BitVec.getLsbD (Memory.read m (Y * Params.stride ⟨.rgb24, pw, ph, vw, vh, cd⟩ + 3 * X) ++
          Memory.read m (Y * Params.stride ⟨.rgb24, pw, ph, vw, vh, cd⟩ + 3 * X + 1) ++
          Memory.read m (Y * Params.stride ⟨.rgb24, pw, ph, vw, vh, cd⟩ + 3 * X + 2)) i = false :=
        fun _ => BitVec.getLsbD_of_ge _ _ (by omega)
      simpa [bitsPerPixel, hi] using h24

/-- Writing a plane pixel completes; its own bits take the value's, every other bit of every row and every byte that is not one
of its own stay, and the form and the bounds of VRAM are kept (spec/40_pixelplane.md R84, spec/20_memory.md R47). -/
theorem writePixel_inPlane {p : Params} {m : Memory} {x y : Int} (value : Word) (h : inPlane p x y)
    (hm : Memory.wf m) :
    ∃ m', writePixel p m x y value = .ok m' ∧ Memory.wf m' ∧ (vramInside p m → vramInside p m') ∧
      (∀ a, a ∉ pixelBytes p x.toNat y.toNat → Memory.read m' a = Memory.read m a) ∧
      ∀ y' k, k < 8 * Params.stride p → rowBit p m' y' k =
        if y' = y.toNat ∧ k / bitsPerPixel p.format = x.toNat then
          value.getLsbD (valueBit p.format (k % bitsPerPixel p.format))
        else rowBit p m y' k := by
  have hx : x.toNat < p.pw := by obtain ⟨h1, h2, h3, h4⟩ := h; omega
  have hy : y.toNat < p.ph := by obtain ⟨h1, h2, h3, h4⟩ := h; omega
  have hin := fun a => pixelBytes_inside (a := a) hx hy
  have hrow := pixel_bits_in_row hx
  unfold writePixel
  rw [locate_inPlane h, bind_ok]
  generalize x.toNat = X at *
  generalize y.toNat = Y at *
  obtain ⟨f, pw, ph, vw, vh, cd⟩ := p
  cases f
  · simp only [bitsPerPixel] at hrow
    simp only [writeSubByte, layout, pixelBytes, List.mem_singleton, forall_eq] at hin ⊢
    rw [readByte_inside hin, bind_ok, writeByte_inside hin]
    refine ⟨_, rfl, Memory.wf_write hm _ _, fun hi => Memory.inside_write hi hin, fun a ha => ?_, fun y' k hk => ?_⟩
    · rw [Memory.read_write hm, if_neg ha]
    · simp only [rowBit, Memory.read_write hm]
      generalize Params.stride _ = w at *
      have hs : shift .packedNibble (X % 2) = 4 * (X % 2) := rfl
      have hb : bitsPerPixel .packedNibble = 4 := rfl
      have hv : ∀ j, valueBit .packedNibble j = j := fun _ => rfl
      by_cases hp : y' * w + k / 8 = Y * w + X / 2
      · obtain ⟨rfl, hq⟩ := row_place_inj (by omega) (by omega) hp
        rw [if_pos hp, mergeField_getLsbD _ _ _ _ (by omega), ← hp]
        by_cases hk : k / 4 = X
        · have e : k % 8 - 4 * (X % 2) = k % 4 := by omega
          rw [if_pos (by rw [hs, hb]; omega), if_pos ⟨rfl, hk⟩, hs, e, hb, hv]
        · rw [if_neg (by rw [hs, hb]; omega), if_neg (fun h => hk h.2)]
      · rw [if_neg hp, if_neg]
        rintro ⟨rfl, hk⟩
        rw [hb] at hk
        exact hp (by congr 1; omega)
  · simp only [bitsPerPixel] at hrow
    simp only [writeSubByte, layout, pixelBytes, List.mem_singleton, forall_eq] at hin ⊢
    rw [readByte_inside hin, bind_ok, writeByte_inside hin]
    refine ⟨_, rfl, Memory.wf_write hm _ _, fun hi => Memory.inside_write hi hin, fun a ha => ?_, fun y' k hk => ?_⟩
    · rw [Memory.read_write hm, if_neg ha]
    · simp only [rowBit, Memory.read_write hm]
      generalize Params.stride _ = w at *
      have hs : shift .packedBit (X % 8) = X % 8 := rfl
      have hb : bitsPerPixel .packedBit = 1 := rfl
      have hv : ∀ j, valueBit .packedBit j = j := fun _ => rfl
      by_cases hp : y' * w + k / 8 = Y * w + X / 8
      · obtain ⟨rfl, hq⟩ := row_place_inj (by omega) (by omega) hp
        rw [if_pos hp, mergeField_getLsbD _ _ _ _ (by omega), ← hp]
        by_cases hk : k / 1 = X
        · have e : k % 8 - X % 8 = k % 1 := by omega
          rw [if_pos (by rw [hs, hb]; omega), if_pos ⟨rfl, hk⟩, hs, e, hb, hv]
        · rw [if_neg (by rw [hs, hb]; omega), if_neg (fun h => hk h.2)]
      · rw [if_neg hp, if_neg]
        rintro ⟨rfl, hk⟩
        rw [hb] at hk
        exact hp (by congr 1; omega)
  · simp only [bitsPerPixel] at hrow
    simp only [layout, pixelBytes, List.mem_cons, List.not_mem_nil, or_false, forall_eq_or_imp, forall_eq, not_or] at hin ⊢
    obtain ⟨hin0, hin1, hin2⟩ := hin
    rw [memWrite_three hin2]
    have w1 := Memory.wf_write hm (Y * Params.stride ⟨.rgb24, pw, ph, vw, vh, cd⟩ + 3 * X)
      (((trunc .rgb24 value).setWidth 24).extractLsb' 16 8)
    have w2 := Memory.wf_write w1 (Y * Params.stride ⟨.rgb24, pw, ph, vw, vh, cd⟩ + 3 * X + 1)
      (((trunc .rgb24 value).setWidth 24).extractLsb' 8 8)
    refine ⟨_, rfl, Memory.wf_write w2 _ _, fun hi =>
      Memory.inside_write (Memory.inside_write (Memory.inside_write hi hin0) hin1) hin2, fun a ha => ?_,
      fun y' k hk => ?_⟩
    · rw [Memory.read_write w2, if_neg ha.2.2, Memory.read_write w1, if_neg ha.2.1, Memory.read_write hm, if_neg ha.1]
    · simp only [rowBit, Memory.read_write w2, Memory.read_write w1, Memory.read_write hm]
      generalize Params.stride _ = w at *
      have bits : ∀ c j, j < 8 → c ≤ 16 → (((trunc .rgb24 value).setWidth 24).extractLsb' c 8).getLsbD j =
          value.getLsbD (c + j) := by
        intro c j hj hc
        have h24 : c + j < 24 := by omega
        simp [hj, trunc_getLsbD, bitsPerPixel, h24]
      have hb : bitsPerPixel .rgb24 = 24 := rfl
      by_cases hp : y' = Y ∧ k / bitsPerPixel .rgb24 = X
      · obtain ⟨rfl, hk24⟩ := hp
        rw [if_pos (show y' = y' ∧ k / bitsPerPixel .rgb24 = X from ⟨rfl, hk24⟩)]
        rw [hb] at hk24
        simp only [valueBit, bitsPerPixel]
        have hj : k % 8 < 8 := by omega
        rcases (by omega : k / 8 = 3 * X ∨ k / 8 = 3 * X + 1 ∨ k / 8 = 3 * X + 2) with hc | hc | hc
        · rw [if_neg (by omega), if_neg (by omega), if_pos (by omega), bits _ _ hj (by omega)]
          congr 1; omega
        · rw [if_neg (by omega), if_pos (by omega), bits _ _ hj (by omega)]
          congr 1; omega
        · rw [if_pos (by omega), bits _ _ hj (by omega)]
          congr 1; omega
      · have off : ∀ c, c ≤ 2 → ¬ y' * w + k / 8 = Y * w + (3 * X + c) := by
          intro c hc he
          obtain ⟨rfl, hq⟩ := row_place_inj (by omega) (by omega) he
          exact hp ⟨rfl, by rw [hb]; omega⟩
        have o0 := off 0 (by omega)
        have o1 := off 1 (by omega)
        have o2 := off 2 (by omega)
        rw [if_neg hp, if_neg (by omega), if_neg (by omega), if_neg (by omega)]

theorem readPixel_outside {p : Params} {m : Memory} {x y : Int} (h : ¬ inPlane p x y) :
    readPixel p m x y = .error .boundsError := by
  simp [readPixel, locate_outside h]

theorem writePixel_outside {p : Params} {m : Memory} {x y : Int} {v : Word} (h : ¬ inPlane p x y) :
    writePixel p m x y v = .error .boundsError := by
  simp [writePixel, locate_outside h]

end Sys2Proof.Machine
end

