-- ==== Sys2Proof/Laws/Fill.lean ====
section
/-! SUPPORT. Rows and rectangles of pixels bit by bit: what a fill writes and what it leaves (spec/40_pixelplane.md R85). -/

namespace Sys2Proof.Machine

/-- What a completed write of the pixels `x0 ≤ x < x1` of the rows `y0 ≤ y < y1` leaves. -/
structure Filled (p : Params) (m m' : Memory) (x0 x1 y0 y1 : Nat) (value : Word) : Prop where
  wf : Memory.wf m'
  inside : vramInside p m → vramInside p m'
  bytes : ∀ a, (∀ x y, x0 ≤ x → x < x1 → y0 ≤ y → y < y1 → a ∉ pixelBytes p x y) →
    Memory.read m' a = Memory.read m a
  bits : ∀ y k, k < 8 * Params.stride p → rowBit p m' y k =
    if (y0 ≤ y ∧ y < y1) ∧ x0 ≤ k / bitsPerPixel p.format ∧ k / bitsPerPixel p.format < x1 then
      value.getLsbD (valueBit p.format (k % bitsPerPixel p.format))
    else rowBit p m y k

theorem Filled.nothing {p : Params} {m : Memory} {x0 x1 y0 y1 : Nat} {value : Word} (hm : Memory.wf m)
    (h : x1 ≤ x0 ∨ y1 ≤ y0) : Filled p m m x0 x1 y0 y1 value where
  wf := hm
  inside := id
  bytes := fun _ _ => rfl
  bits := fun y k _ => by rw [if_neg (by omega)]

theorem fillRow_inPlane {p : Params} {m : Memory} {x y : Nat} (value : Word) (hy : y < p.ph) (hm : Memory.wf m) :
    ∀ n, x + n ≤ p.pw → ∃ m', fillRow p m x y value n = .ok m' ∧ Filled p m m' x (x + n) y (y + 1) value := by
  intro n
  induction n with
  | zero => exact fun _ => ⟨m, rfl, .nothing hm (.inl (by omega))⟩
  | succ n ih =>
    intro hn
    obtain ⟨m1, h1, f1⟩ := ih (by omega)
    have hp : inPlane p ((x : Int) + n) (y : Int) := ⟨by omega, by omega, by omega, by omega⟩
    obtain ⟨m2, h2, w2, i2, b2, r2⟩ := writePixel_inPlane value hp f1.wf
    have ex : ((x : Int) + n).toNat = x + n := by omega
    have ey : ((y : Int)).toNat = y := by omega
    rw [ex, ey] at b2 r2
    refine ⟨m2, ?_, w2, fun hi => i2 (f1.inside hi), fun a ha => ?_, fun y' k hk => ?_⟩
    · unfold fillRow; rw [h1, bind_ok]; exact h2
    · rw [b2 a (ha (x + n) y (by omega) (by omega) (by omega) (by omega)),
        f1.bytes a fun x' y' h1 h2 h3 h4 => ha x' y' h1 (by omega) h3 h4]
    · rw [r2 y' k hk, f1.bits y' k hk]
      generalize k / bitsPerPixel p.format = q
      by_cases c1 : y' = y ∧ q = x + n
      · rw [if_pos c1, if_pos (by omega)]
      · rw [if_neg c1]
        by_cases c2 : (y ≤ y' ∧ y' < y + 1) ∧ x ≤ q ∧ q < x + n
        · rw [if_pos c2, if_pos (by omega)]
        · rw [if_neg c2, if_neg (by omega)]

theorem fillRows_inPlane {p : Params} {m : Memory} {x y w : Nat} (value : Word) (hx : x + w ≤ p.pw)
    (hm : Memory.wf m) :
    ∀ h, y + h ≤ p.ph → ∃ m', fillRows p m x y w value h = .ok m' ∧ Filled p m m' x (x + w) y (y + h) value := by
  intro h
  induction h with
  | zero => exact fun _ => ⟨m, rfl, .nothing hm (.inr (by omega))⟩
  | succ h ih =>
    intro hh
    obtain ⟨m1, h1, f1⟩ := ih (by omega)
    obtain ⟨m2, h2, f2⟩ := fillRow_inPlane (x := x) (y := y + h) value (by omega) f1.wf w hx
    have ey : ((y + h : Nat) : Int) = (y : Int) + h := by omega
    rw [ey] at h2
    refine ⟨m2, ?_, f2.wf, fun hi => f2.inside (f1.inside hi), fun a ha => ?_, fun y' k hk => ?_⟩
    · unfold fillRows; rw [h1, bind_ok]; exact h2
    · rw [f2.bytes a fun x' y' h1 h2 h3 h4 => ha x' y' h1 h2 (by omega) (by omega),
        f1.bytes a fun x' y' h1 h2 h3 h4 => ha x' y' h1 h2 h3 (by omega)]
    · rw [f2.bits y' k hk, f1.bits y' k hk]
      generalize k / bitsPerPixel p.format = q
      by_cases c1 : (y + h ≤ y' ∧ y' < y + h + 1) ∧ x ≤ q ∧ q < x + w
      · rw [if_pos c1, if_pos (by omega)]
      · rw [if_neg c1]
        by_cases c2 : (y ≤ y' ∧ y' < y + h) ∧ x ≤ q ∧ q < x + w
        · rw [if_pos c2, if_pos (by omega)]
        · rw [if_neg c2, if_neg (by omega)]

/-- A non-empty rectangle with both corners in the plane is filled whole. -/
theorem fillRegion_inPlane {p : Params} {m : Memory} {x0 y0 x1 y1 : Int} (value : Word) (hx : x0 ≤ x1) (hy : y0 ≤ y1)
    (h0 : inPlane p x0 y0) (h1 : inPlane p x1 y1) (hm : Memory.wf m) :
    ∃ m', fillRegion p m x0 y0 x1 y1 value = .ok m' ∧
      Filled p m m' x0.toNat (x1.toNat + 1) y0.toNat (y1.toNat + 1) value := by
  obtain ⟨a1, a2, a3, a4⟩ := h0
  obtain ⟨b1, b2, b3, b4⟩ := h1
  obtain ⟨m', e, f⟩ := fillRows_inPlane (p := p) (m := m) (x := x0.toNat) (y := y0.toNat)
    (w := (x1 - x0 + 1).toNat) value (by omega) hm (y1 - y0 + 1).toNat (by omega)
  have ex : x0.toNat + (x1 - x0 + 1).toNat = x1.toNat + 1 := by omega
  have ey : y0.toNat + (y1 - y0 + 1).toNat = y1.toNat + 1 := by omega
  have ex' : ((x0.toNat : Nat) : Int) = x0 := by omega
  have ey' : ((y0.toNat : Nat) : Int) = y0 := by omega
  rw [ex, ey] at f
  rw [ex', ey'] at e
  refine ⟨m', ?_, f⟩
  unfold fillRegion
  rw [if_neg (by simp only [emptyRect]; omega), locate_inPlane ⟨a1, a2, a3, a4⟩, bind_ok,
    locate_inPlane ⟨b1, b2, b3, b4⟩, bind_ok]
  exact e

/-- An empty rectangle fills nothing. -/
theorem fillRegion_empty {p : Params} {m : Memory} {x0 y0 x1 y1 : Int} {value : Word} (h : emptyRect x0 y0 x1 y1) :
    fillRegion p m x0 y0 x1 y1 value = .ok m := if_pos h

/-- A write of one pixel is a fill of that pixel. -/
theorem writePixel_filled {p : Params} {m : Memory} {x y : Int} (value : Word) (h : inPlane p x y) (hm : Memory.wf m) :
    ∃ m', writePixel p m x y value = .ok m' ∧
      Filled p m m' x.toNat (x.toNat + 1) y.toNat (y.toNat + 1) value := by
  obtain ⟨m', e, w, i, b, r⟩ := writePixel_inPlane value h hm
  refine ⟨m', e, w, i, fun a ha => b a (ha _ _ (by omega) (by omega) (by omega) (by omega)), fun y' k hk => ?_⟩
  rw [r y' k hk]
  generalize k / bitsPerPixel p.format = q
  by_cases c : y' = y.toNat ∧ q = x.toNat
  · rw [if_pos c, if_pos (by omega)]
  · rw [if_neg c, if_neg (by omega)]

/-- What a filled memory's pixels read as: the truncated value inside, what they were outside. -/
theorem Filled.readPixel {p : Params} {m m' : Memory} {x0 x1 y0 y1 : Nat} {value : Word}
    (f : Filled p m m' x0 x1 y0 y1 value) {x y : Int} (h : inPlane p x y) :
    Sys2Proof.Machine.readPixel p m' x y =
      if (y0 ≤ y.toNat ∧ y.toNat < y1) ∧ x0 ≤ x.toNat ∧ x.toNat < x1 then .ok (trunc p.format value)
      else Sys2Proof.Machine.readPixel p m x y := by
  obtain ⟨v', e', b'⟩ := readPixel_inPlane (m := m') h
  obtain ⟨v, e, b⟩ := readPixel_inPlane (m := m) h
  have hx : x.toNat < p.pw := by obtain ⟨h1, h2, h3, h4⟩ := h; omega
  have hpos := bitsPerPixel_pos p.format
  have place : ∀ i, i < bitsPerPixel p.format →
      x.toNat * bitsPerPixel p.format + valueBit p.format i < 8 * Params.stride p ∧
      (x.toNat * bitsPerPixel p.format + valueBit p.format i) / bitsPerPixel p.format = x.toNat ∧
      (x.toNat * bitsPerPixel p.format + valueBit p.format i) % bitsPerPixel p.format = valueBit p.format i := by
    intro i hi
    have hv := valueBit_lt hi
    have hr := pixel_bits_in_row hx
    rw [Nat.succ_mul] at hr
    refine ⟨by omega, ?_, ?_⟩
    · rw [Nat.mul_comm, Nat.mul_add_div hpos, Nat.div_eq_of_lt hv]; omega
    · rw [Nat.mul_comm, Nat.mul_add_mod, Nat.mod_eq_of_lt hv]
  rw [e', e]
  split
  · next c =>
    congr 1
    apply BitVec.eq_of_getLsbD_eq
    intro i _
    rw [b', trunc_getLsbD]
    by_cases hi : i < bitsPerPixel p.format
    · obtain ⟨h1, h2, h3⟩ := place i hi
      rw [f.bits _ _ h1, h2, h3, if_pos c, valueBit_valueBit hi]
    · simp [hi]
  · next c =>
    congr 1
    apply BitVec.eq_of_getLsbD_eq
    intro i _
    rw [b', b]
    by_cases hi : i < bitsPerPixel p.format
    · obtain ⟨h1, h2, h3⟩ := place i hi
      rw [f.bits _ _ h1, h2, if_neg c]
    · simp [hi]

/-- The same write again leaves the memory as it is (spec/20_memory.md R49). -/
theorem Filled.again {p : Params} {m m1 m2 : Memory} {x0 x1 y0 y1 : Nat} {value : Word}
    (hs : 0 < Params.stride p) (f : Filled p m m1 x0 x1 y0 y1 value) (g : Filled p m1 m2 x0 x1 y0 y1 value) :
    m2 = m1 := by
  refine Memory.eq_of_read g.wf f.wf fun a => ?_
  apply BitVec.eq_of_getLsbD_eq
  intro j hj
  have hlt : a % Params.stride p < Params.stride p := Nat.mod_lt _ hs
  have hk : 8 * (a % Params.stride p) + j < 8 * Params.stride p := by omega
  have ea : a / Params.stride p * Params.stride p + (8 * (a % Params.stride p) + j) / 8 = a := by
    have := Nat.div_add_mod a (Params.stride p)
    rw [Nat.mul_comm] at this
    omega
  have bit : ∀ n : Memory, rowBit p n (a / Params.stride p) (8 * (a % Params.stride p) + j) =
      (Memory.read n a).getLsbD j := by
    intro n
    unfold rowBit
    rw [ea]
    congr 1
    omega
  have h1 := f.bits (a / Params.stride p) _ hk
  have h2 := g.bits (a / Params.stride p) _ hk
  rw [bit] at h1 h2
  rw [h2]
  split
  · next c => rw [h1, if_pos c]
  · exact bit m1

end Sys2Proof.Machine
end

