-- ==== Sys2Proof/Laws/Exec.lean ====
section
/-! SUPPORT. What performing a command can do: every command goes on, in one of five ways (spec/41_displaymemory.md R100 to
R110). -/

namespace Sys2Proof.Machine

@[simp] theorem complete_ok (s t : State) : complete s (.ok t) = .next t := rfl

@[simp] theorem complete_boundsError (s : State) : complete s (.error .boundsError) = .next (s.raise .boundsError) := rfl

@[simp] theorem complete_fault (s : State) (f : Fault) : complete s (.error (.fault f)) = .fault f := rfl

/-- A command that goes on made its state, or raised BoundsError and left its own. -/
theorem complete_next {s t : State} {x : Except Abort State} (h : complete s x = .next t) :
    x = .ok t ∨ (x = .error .boundsError ∧ t = s.raise .boundsError) := by
  cases x with
  | ok u => exact .inl (by simpa using h)
  | error e =>
    cases e with
    | boundsError => exact .inr ⟨rfl, by simpa using h.symm⟩
    | fault f => simp at h

theorem legal_viewport {p : Params} (h : Params.legal p) :
    1 ≤ p.vw ∧ p.vw ≤ p.pw ∧ 1 ≤ p.vh ∧ p.vh ≤ p.ph := by
  obtain ⟨-, -, h3, h4, h5, h6, -⟩ := h
  exact ⟨h3, h4, h5, h6⟩

/-- The viewport lies in the plane (spec/00_scope.md R7). -/
theorem inPlane_of_inViewport {p : Params} {x y : Int} (hl : Params.legal p) (h : inViewport p x y) : inPlane p x y := by
  obtain ⟨-, h2, -, h4⟩ := legal_viewport hl
  obtain ⟨a, b, c, d⟩ := h
  exact ⟨a, by omega, c, by omega⟩

/-- The five things a command can do to a state: answer only, draw a rectangle of the viewport, mark, clear, reset. -/
inductive Effect (s : State) : Instr → State → Prop where
  | answers {i : Instr} {r : Response} (silent : ∀ px py, ¬ writesPixel s.params i px py) (hc : i ≠ .clrdirty) :
      Effect s i (s.respond r)
  | draws {i : Instr} {m : Memory} {x0 y0 x1 y1 : Int} {value : Word} (h0 : inViewport s.params x0 y0)
      (h1 : inViewport s.params x1 y1) (hx : x0 ≤ x1) (hy : y0 ≤ y1)
      (written : ∀ px py, writesPixel s.params i px py ↔ x0 ≤ px ∧ px ≤ x1 ∧ y0 ≤ py ∧ py ≤ y1)
      (filled : Filled s.params s.vram m x0.toNat (x1.toNat + 1) y0.toNat (y1.toNat + 1) value) :
      Effect s i (((s.withVram m).withDirty (markDirty s.params s.dirty x0 y0 x1 y1)).respond Response.okPlain)
  | marks (x0 y0 x1 y1 : Word) :
      Effect s (.mark x0 y0 x1 y1)
        ((s.withDirty (markDirty s.params s.dirty (coord x0) (coord y0) (coord x1) (coord y1))).respond Response.okPlain)
  | clears : Effect s .clrdirty ((s.withDirty DirtyReg.empty).respond Response.okPlain)
  | resets : Effect s .reset ((resetSequence s).respond Response.okPlain)

theorem exec_setpx_inside {s : State} {x y value : Word} (hl : Params.legal s.params) (hm : Memory.wf s.vram)
    (h : inViewport s.params (coord x) (coord y)) :
    ∃ m, exec (.setpx x y value) s =
        .next (((s.withVram m).withDirty (markDirty s.params s.dirty (coord x) (coord y) (coord x) (coord y))).respond
          Response.okPlain) ∧
      Filled s.params s.vram m (coord x).toNat ((coord x).toNat + 1) (coord y).toNat ((coord y).toNat + 1) value := by
  obtain ⟨m, e, f⟩ := writePixel_filled (m := s.vram) value (inPlane_of_inViewport hl h) hm
  refine ⟨m, ?_, f⟩
  simp only [exec, execSetpx, if_pos h, drawn, e, bind_ok, complete_ok]

theorem exec_fill_inside {s : State} {x0 y0 x1 y1 value : Word} (hl : Params.legal s.params) (hm : Memory.wf s.vram)
    (hx : coord x0 ≤ coord x1) (hy : coord y0 ≤ coord y1) (h0 : inViewport s.params (coord x0) (coord y0))
    (h1 : inViewport s.params (coord x1) (coord y1)) :
    ∃ m, exec (.fill x0 y0 x1 y1 value) s =
        .next (((s.withVram m).withDirty
          (markDirty s.params s.dirty (coord x0) (coord y0) (coord x1) (coord y1))).respond Response.okPlain) ∧
      Filled s.params s.vram m (coord x0).toNat ((coord x1).toNat + 1) (coord y0).toNat ((coord y1).toNat + 1)
        value := by
  obtain ⟨m, e, f⟩ := fillRegion_inPlane (m := s.vram) value hx hy (inPlane_of_inViewport hl h0)
    (inPlane_of_inViewport hl h1) hm
  have ne : ¬ emptyRect (coord x0) (coord y0) (coord x1) (coord y1) := by simp only [emptyRect]; omega
  refine ⟨m, ?_, f⟩
  simp only [exec, execFill, if_neg ne, if_pos (And.intro h0 h1), drawn, e, bind_ok, complete_ok]

/-- Every command goes on, with one of the five effects. -/
theorem exec_effect (i : Instr) {s : State} (hl : Params.legal s.params) (hm : Memory.wf s.vram) :
    ∃ t, exec i s = .next t ∧ Effect s i t := by
  cases i with
  | info => exact ⟨_, rfl, .answers (fun _ _ => id) (by simp)⟩
  | locate x y =>
    by_cases h : inPlane s.params (coord x) (coord y)
    · let l := layout s.params (coord x).toNat (coord y).toNat
      refine ⟨s.respond (Response.okWith false (u32 l.byteOffset) (u32 l.subIndex)
        (u32 (shift s.params.format l.subIndex)) (mask s.params.format l.subIndex)), ?_,
        .answers (fun _ _ => id) (by simp)⟩
      simp only [exec, execLocate, locate_inPlane h, bind_ok, complete_ok, l]
    · refine ⟨s.respond (Response.error .boundsError), ?_, .answers (fun _ _ => id) (by simp)⟩
      simp only [exec, execLocate, locate_outside h, bind_error, complete_boundsError]
      rfl
  | getpx x y =>
    by_cases h : inPlane s.params (coord x) (coord y)
    · obtain ⟨v, e, -⟩ := readPixel_inPlane (m := s.vram) h
      refine ⟨s.respond (Response.okWith false v 0 0 0), ?_, .answers (fun _ _ => id) (by simp)⟩
      simp only [exec, execGetpx, e, bind_ok, complete_ok]
    · refine ⟨s.respond (Response.error .boundsError), ?_, .answers (fun _ _ => id) (by simp)⟩
      simp only [exec, execGetpx, readPixel_outside h, bind_error, complete_boundsError]
      rfl
  | setpx x y value =>
    by_cases h : inViewport s.params (coord x) (coord y)
    · obtain ⟨m, e, f⟩ := exec_setpx_inside (value := value) hl hm h
      refine ⟨_, e, .draws h h (le_refl _) (le_refl _) (fun px py => ?_) f⟩
      simp only [writesPixel]
      constructor
      · rintro ⟨-, rfl, rfl⟩; omega
      · exact fun hp => ⟨h, by omega, by omega⟩
    · refine ⟨_, ?_, .answers (r := Response.error .boundsError) (fun px py hw => h hw.1) (by simp)⟩
      simp only [exec, execSetpx, if_neg h, complete_boundsError]
      rfl
  | fill x0 y0 x1 y1 value =>
    by_cases he : emptyRect (coord x0) (coord y0) (coord x1) (coord y1)
    · refine ⟨s.respond Response.okPlain, ?_, .answers (fun px py hw => ?_) (by simp)⟩
      · simp only [exec, execFill, if_pos he, complete_ok]
      · simp only [emptyRect] at he
        obtain ⟨-, -, h⟩ := hw
        omega
    · by_cases h : inViewport s.params (coord x0) (coord y0) ∧ inViewport s.params (coord x1) (coord y1)
      · simp only [emptyRect, not_or, not_lt] at he
        obtain ⟨m, e, f⟩ := exec_fill_inside (value := value) hl hm he.1 he.2 h.1 h.2
        refine ⟨_, e, .draws h.1 h.2 he.1 he.2 (fun px py => ?_) f⟩
        simp only [writesPixel]
        exact ⟨fun hw => hw.2.2, fun hp => ⟨h.1, h.2, hp⟩⟩
      · refine ⟨_, ?_, .answers (r := Response.error .boundsError) (fun px py hw => h ⟨hw.1, hw.2.1⟩) (by simp)⟩
        simp only [exec, execFill, if_neg he, if_neg h, complete_boundsError]
        rfl
  | mark x0 y0 x1 y1 => exact ⟨_, rfl, .marks x0 y0 x1 y1⟩
  | clrdirty => exact ⟨_, rfl, .clears⟩
  | getdirty => exact ⟨_, rfl, .answers (fun _ _ => id) (by simp)⟩
  | reset => exact ⟨_, rfl, .resets⟩
  | reserved op => exact ⟨_, rfl, .answers (fun _ _ => id) (by simp)⟩

/-- A next state comes of one of the five effects. -/
theorem exec_next {i : Instr} {s t : State} (hl : Params.legal s.params) (hm : Memory.wf s.vram)
    (h : exec i s = .next t) : Effect s i t := by
  obtain ⟨t', e, f⟩ := exec_effect i hl hm
  rw [h] at e
  injection e with e
  exact e ▸ f

/-- No command touches the instance's constants or what the host drives (spec/10_state.md R21). -/
theorem Effect.keeps {s t : State} {i : Instr} (h : Effect s i t) :
    t.params = s.params ∧ t.offered = s.offered ∧ t.pins = s.pins ∧ t.rsp.isSome = true := by
  cases h <;> exact ⟨rfl, rfl, rfl, rfl⟩

/-- What a command that goes on leaves, whatever the state it began in: the constants and the host's inputs, and a response on
the port. -/
theorem exec_keeps {i : Instr} {s t : State} (h : exec i s = .next t) :
    t.params = s.params ∧ t.offered = s.offered ∧ t.pins = s.pins ∧ t.rsp.isSome = true := by
  have bounds : t = s.raise .boundsError →
      t.params = s.params ∧ t.offered = s.offered ∧ t.pins = s.pins ∧ t.rsp.isSome = true := by
    rintro rfl
    exact ⟨rfl, rfl, rfl, rfl⟩
  have made : ∀ {m : Except Abort Memory} {x0 y0 x1 y1 : Int}, drawn s m x0 y0 x1 y1 = .ok t →
      t.params = s.params ∧ t.offered = s.offered ∧ t.pins = s.pins ∧ t.rsp.isSome = true := by
    intro m x0 y0 x1 y1 h
    obtain ⟨m', -, h⟩ := bind_ok_cases h
    cases h
    exact ⟨rfl, rfl, rfl, rfl⟩
  cases i with
  | info => cases h; exact ⟨rfl, rfl, rfl, rfl⟩
  | locate x y =>
    rcases complete_next h with h | ⟨-, h⟩
    · obtain ⟨l, -, h⟩ := bind_ok_cases h
      cases h
      exact ⟨rfl, rfl, rfl, rfl⟩
    · exact bounds h
  | getpx x y =>
    rcases complete_next h with h | ⟨-, h⟩
    · obtain ⟨l, -, h⟩ := bind_ok_cases h
      cases h
      exact ⟨rfl, rfl, rfl, rfl⟩
    · exact bounds h
  | setpx x y value =>
    rcases complete_next h with h | ⟨-, h⟩
    · split at h
      · exact made h
      · simp at h
    · exact bounds h
  | fill x0 y0 x1 y1 value =>
    rcases complete_next h with h | ⟨-, h⟩
    · split at h
      · cases h; exact ⟨rfl, rfl, rfl, rfl⟩
      · split at h
        · exact made h
        · simp at h
    · exact bounds h
  | mark x0 y0 x1 y1 => cases h; exact ⟨rfl, rfl, rfl, rfl⟩
  | clrdirty => cases h; exact ⟨rfl, rfl, rfl, rfl⟩
  | getdirty => cases h; exact ⟨rfl, rfl, rfl, rfl⟩
  | reset => cases h; exact ⟨rfl, rfl, rfl, rfl⟩
  | reserved op => cases h; exact ⟨rfl, rfl, rfl, rfl⟩

end Sys2Proof.Machine
end

