-- ==== Sys2Proof/Laws/PerInstr.lean ====
section
/-! SUPPORT. Laws of every command as syntax, one lemma per constructor. -/

namespace Sys2Proof.Laws.OpField

/-- The encoded word carries the command's op code in bits 7:0, and the decoder's own field reads it (spec/30_encoding.md R60,
R65). -/
def Statement (i : Instr) : Prop := CmdWord.op (encode i) = i.opcode

theorem info : Statement .info := op_ofFields ..
theorem locate (x y : Word) : Statement (.locate x y) := op_ofFields ..
theorem getpx (x y : Word) : Statement (.getpx x y) := op_ofFields ..
theorem setpx (x y value : Word) : Statement (.setpx x y value) := op_ofFields ..
theorem fill (x0 y0 x1 y1 value : Word) : Statement (.fill x0 y0 x1 y1 value) := op_ofFields ..
theorem mark (x0 y0 x1 y1 : Word) : Statement (.mark x0 y0 x1 y1) := op_ofFields ..
theorem clrdirty : Statement .clrdirty := op_ofFields ..
theorem getdirty : Statement .getdirty := op_ofFields ..
theorem reset : Statement .reset := op_ofFields ..
theorem reserved (op : Byte) : Statement (.reserved op) := op_ofFields ..

end Sys2Proof.Laws.OpField
end

