-- ==== Sys2Proof/Laws/Port.lean ====
section
/-! SUPPORT. What one step can do, by the event on the port (spec/70_reset_and_hazards.md R161). -/

namespace Sys2Proof.Machine

/-- Every way a step of a legal instance can answer a next state. -/
theorem step_cases {s t : State} (h : step s = .next t) :
    Params.legal s.params ∧
    ((s.pinsNow.rst = true ∧ t = s.tick.portReset) ∨
     (s.pinsNow.rst = false ∧
      ((∃ r, s.rsp = some r ∧ t = if s.pinsNow.rspReady then s.tick.takeResponse else s.tick) ∨
       (s.rsp = none ∧ s.offered = [] ∧ t = s.tick) ∨
       (s.rsp = none ∧ ∃ w ws, s.offered = w :: ws ∧ exec (decode w) s.tick.accept = .next t)))) := by
  unfold step at h
  split at h
  · next hl =>
    refine ⟨hl, ?_⟩
    unfold State.portEvent at h
    cases hrst : s.pinsNow.rst with
    | true =>
      simp only [hrst, if_true, Host.Outcome.next.injEq] at h
      exact .inl ⟨rfl, h.symm⟩
    | false =>
      refine .inr ⟨rfl, ?_⟩
      simp only [hrst, Bool.false_eq_true, if_false] at h
      cases hr : s.rsp with
      | some r =>
        refine .inl ⟨r, rfl, ?_⟩
        simp only [hr] at h
        cases hy : s.pinsNow.rspReady <;> simp only [hy, Bool.false_eq_true, if_false, if_true,
          Host.Outcome.next.injEq] at h ⊢ <;> exact h.symm
      | none =>
        cases ho : s.offered with
        | nil =>
          simp only [hr, ho, Host.Outcome.next.injEq] at h
          exact .inr (.inl ⟨rfl, rfl, h.symm⟩)
        | cons w ws =>
          simp only [hr, ho] at h
          exact .inr (.inr ⟨rfl, w, ws, rfl, h⟩)
  · simp at h

/-- A command that is offered to a ready port is performed. -/
theorem step_accepts {s : State} {w : CmdWord} {ws : List CmdWord} (hl : Params.legal s.params)
    (hp : s.pinsNow.rst = false) (hr : s.rsp = none) (ho : s.offered = w :: ws) :
    step s = exec (decode w) s.tick.accept := by
  unfold step State.portEvent
  rw [if_pos hl]
  simp [hp, hr, ho]

/-- A response that waits is taken or goes on waiting. -/
theorem step_responds {s : State} {r : Response} (hl : Params.legal s.params) (hp : s.pinsNow.rst = false)
    (hr : s.rsp = some r) : step s = .next (if s.pinsNow.rspReady then s.tick.takeResponse else s.tick) := by
  unfold step State.portEvent
  rw [if_pos hl]
  cases hy : s.pinsNow.rspReady <;> simp [hp, hr]

/-- An outcome with its next state changed. -/
def mapNext (f : State → State) : Outcome → Outcome
  | .next t => .next (f t)
  | .fault e => .fault e
  | .refused e => .refused e

/-- No command looks at what the host offers next (spec/70_reset_and_hazards.md R160). -/
theorem exec_withOffered (i : Instr) (s : State) (ws : List CmdWord) :
    exec i (s.withOffered ws) = mapNext (·.withOffered ws) (exec i s) := by
  have done : ∀ x : Except Abort State,
      complete (s.withOffered ws) (x.map (·.withOffered ws)) = mapNext (·.withOffered ws) (complete s x) := by
    intro x
    cases x with
    | ok t => rfl
    | error e => cases e <;> rfl
  cases i with
  | info => rfl
  | locate x y =>
    rw [exec, execLocate, exec, execLocate, ← done]
    congr 1
    simp only [State.withOffered_params]
    cases locate s.params (coord x) (coord y) <;> rfl
  | getpx x y =>
    rw [exec, execGetpx, exec, execGetpx, ← done]
    congr 1
    simp only [State.withOffered_params, State.withOffered_vram]
    cases readPixel s.params s.vram (coord x) (coord y) <;> rfl
  | setpx x y v =>
    rw [exec, execSetpx, exec, execSetpx, ← done]
    congr 1
    by_cases h : inViewport s.params (coord x) (coord y)
    · rw [if_pos h, if_pos (show inViewport (s.withOffered ws).params (coord x) (coord y) from h)]
      simp only [State.withOffered_params, State.withOffered_vram, drawn]
      cases writePixel s.params s.vram (coord x) (coord y) v <;> rfl
    · rw [if_neg h, if_neg (show ¬ inViewport (s.withOffered ws).params (coord x) (coord y) from h)]
      rfl
  | fill x0 y0 x1 y1 v =>
    rw [exec, execFill, exec, execFill, ← done]
    congr 1
    split
    · rfl
    · by_cases h : inViewport s.params (coord x0) (coord y0) ∧ inViewport s.params (coord x1) (coord y1)
      · rw [if_pos h, if_pos (show inViewport (s.withOffered ws).params (coord x0) (coord y0) ∧
          inViewport (s.withOffered ws).params (coord x1) (coord y1) from h)]
        simp only [State.withOffered_params, State.withOffered_vram, drawn]
        cases fillRegion s.params s.vram (coord x0) (coord y0) (coord x1) (coord y1) v <;> rfl
      · rw [if_neg h, if_neg (show ¬ (inViewport (s.withOffered ws).params (coord x0) (coord y0) ∧
          inViewport (s.withOffered ws).params (coord x1) (coord y1)) from h)]
        rfl
  | mark x0 y0 x1 y1 => rfl
  | clrdirty => rfl
  | getdirty => simp [exec, execGetdirty]; rfl
  | reset => rfl
  | reserved op => rfl

end Sys2Proof.Machine
end

