-- ==== Sys2Proof/Laws/Response.lean ====
section
/-! SUPPORT. The bits of a response word (spec/30_encoding.md R63). -/

namespace Sys2Proof.Machine

/-- The bits of eight fields put together, from the lowest field up. -/
theorem getLsbD_eight {n0 n1 n2 n3 n4 n5 n6 n7 : Nat} (x0 : BitVec n0) (x1 : BitVec n1) (x2 : BitVec n2)
    (x3 : BitVec n3) (x4 : BitVec n4) (x5 : BitVec n5) (x6 : BitVec n6) (x7 : BitVec n7) (k : Nat) :
    (x7 ++ x6 ++ x5 ++ x4 ++ x3 ++ x2 ++ x1 ++ x0).getLsbD k =
      if k < n0 then x0.getLsbD k
      else if k - n0 < n1 then x1.getLsbD (k - n0)
      else if k - n0 - n1 < n2 then x2.getLsbD (k - n0 - n1)
      else if k - n0 - n1 - n2 < n3 then x3.getLsbD (k - n0 - n1 - n2)
      else if k - n0 - n1 - n2 - n3 < n4 then x4.getLsbD (k - n0 - n1 - n2 - n3)
      else if k - n0 - n1 - n2 - n3 - n4 < n5 then x5.getLsbD (k - n0 - n1 - n2 - n3 - n4)
      else if k - n0 - n1 - n2 - n3 - n4 - n5 < n6 then x6.getLsbD (k - n0 - n1 - n2 - n3 - n4 - n5)
      else x7.getLsbD (k - n0 - n1 - n2 - n3 - n4 - n5 - n6) := by
  simp only [BitVec.getLsbD_append]

/-- Bit `k` of a response word is a bit of the field that lies there. -/
theorem Response.getLsbD_word (r : Response) (k : Nat) :
    r.word.getLsbD k =
      if k < 2 then (Status.code r.status).getLsbD k
      else if k - 2 < 6 then (0#6).getLsbD (k - 2)
      else if k - 2 - 6 < 1 then (BitVec.ofBool r.flag).getLsbD (k - 2 - 6)
      else if k - 2 - 6 - 1 < 7 then (0#7).getLsbD (k - 2 - 6 - 1)
      else if k - 2 - 6 - 1 - 7 < 32 then r.r0.getLsbD (k - 2 - 6 - 1 - 7)
      else if k - 2 - 6 - 1 - 7 - 32 < 32 then r.r1.getLsbD (k - 2 - 6 - 1 - 7 - 32)
      else if k - 2 - 6 - 1 - 7 - 32 - 32 < 32 then r.r2.getLsbD (k - 2 - 6 - 1 - 7 - 32 - 32)
      else r.r3.getLsbD (k - 2 - 6 - 1 - 7 - 32 - 32 - 32) :=
  getLsbD_eight _ _ _ _ _ _ _ _ k

end Sys2Proof.Machine
end

