-- ==== Sys2Proof/Tests/Slice0.lean ====
section
/-! SUPPORT. The model's own tests: the well-formedness check, the decoding of words written out from the spec's encoding, the
commands on the spec's vectors (spec/95_test_vectors.md), and a witness for the hypotheses of every statement of
Sys2Proof/Certificates/Slice0/Obligations.lean. -/

namespace Sys2Proof.Tests

open Sys2Proof.Machine

/-! ### Small instances, states and readers -/

/-- The instance of program P4: an odd-width nibble plane. -/
def nib : Params := { format := .packedNibble, pw := 5, ph := 3, vw := 5, vh := 3, colorDepth := 4 }

/-- The instance of program P2: a bit plane with padding. -/
def bit : Params := { format := .packedBit, pw := 20, ph := 4, vw := 20, vh := 4, colorDepth := 1 }

/-- The instance of program P3: an RGB24 plane wider than its viewport. -/
def rgb : Params := { format := .rgb24, pw := 6, ph := 2, vw := 4, vh := 2, colorDepth := 24 }

/-- An instance without a pixel column: not legal. -/
def broken : Params := { format := .packedBit, pw := 0, ph := 1, vw := 0, vh := 1, colorDepth := 1 }

/-- An instance with these VRAM bytes and an empty dirty region. -/
def holding (p : Params) (m : Memory) : State := ((State.powerOn p).withVram m).withDirty DirtyReg.empty

/-- The register holding a rectangle of small corners. -/
def box (x0 y0 x1 y1 : Word) : DirtyReg := { valid := true, x0 := x0, y0 := y0, x1 := x1, y1 := y1 }

/-- The response a command gave. -/
def rspOf : Outcome → Option Response
  | .next t => t.rsp
  | .fault _ => none
  | .refused _ => none

/-- The VRAM and the dirty region a command left. -/
def left : Outcome → Option (Memory × DirtyReg)
  | .next t => some (t.vram, t.dirty)
  | .fault _ => none
  | .refused _ => none

/-- The response OK with these results. -/
def ok (flag : Bool) (r0 r1 r2 r3 : Word) : Option Response :=
  some { status := .ok, flag := flag, r0 := r0, r1 := r1, r2 := r2, r3 := r3 }

/-! ### Well-formedness (spec/30_encoding.md R67): the one check -/

theorem test_wellFormed_refuses_assigned_op : (Instr.reserved 0x08).wellFormed = false := by decide

theorem test_wellFormed_admits_reserved_op : (Instr.reserved 0x09).wellFormed = true ∧
    (Instr.reserved 0xFF).wellFormed = true := by decide

/-! ### Decoding (spec/30_encoding.md R60, R65): each word is written out as its fields V, D, C, B, A, OP -/

theorem test_decode_info : decode (0x00000005#32 ++ 0x00000004#32 ++ 0x00000003#32 ++ 0x00000002#32 ++ 0x00000001#32 ++
    0b00000000#8 : BitVec 168) = .info := by decide

theorem test_decode_locate : decode (0x00000005#32 ++ 0x00000004#32 ++ 0x00000003#32 ++
    0b00000000000000000000000000000001#32 ++ 0b11111111111111111111111111111110#32 ++ 0b00000001#8 : BitVec 168) =
    .locate 0xFFFFFFFE 1 := by decide

theorem test_decode_getpx : decode (0x00000005#32 ++ 0x00000004#32 ++ 0x00000003#32 ++
    0b10000000000000000000000000000000#32 ++ 0b00000000000000000000000011111111#32 ++ 0b00000010#8 : BitVec 168) =
    .getpx 0xFF 0x80000000 := by decide

theorem test_decode_setpx : decode (0b00000000000000000000000000001111#32 ++ 0x12345678#32 ++ 0x12345678#32 ++
    0b00000000000000000000000000000000#32 ++ 0b00000000000000000000000000000001#32 ++ 0b00000011#8 : BitVec 168) =
    .setpx 1 0 0xF := by decide

theorem test_decode_fill : decode (0b00000000000000000000000000000001#32 ++ 0b00000000000000000000000000000010#32 ++
    0b00000000000000000000000000001100#32 ++ 0b00000000000000000000000000000001#32 ++
    0b00000000000000000000000000000011#32 ++ 0b00000100#8 : BitVec 168) = .fill 3 1 12 2 1 := by decide

theorem test_decode_mark : decode (0x00000005#32 ++ 0b00000000000000000000000000000011#32 ++
    0b11111111111111111111111111111011#32 ++ 0b00000000000000000000000000000011#32 ++
    0b11111111111111111111111111110110#32 ++ 0b00000101#8 : BitVec 168) = .mark (-10) 3 (-5) 3 := by decide

theorem test_decode_clrdirty : decode (0x00000005#32 ++ 0x00000004#32 ++ 0x00000003#32 ++ 0x00000002#32 ++
    0x00000001#32 ++ 0b00000110#8 : BitVec 168) = .clrdirty := by decide

theorem test_decode_getdirty : decode (0x00000005#32 ++ 0x00000004#32 ++ 0x00000003#32 ++ 0x00000002#32 ++
    0x00000001#32 ++ 0b00000111#8 : BitVec 168) = .getdirty := by decide

theorem test_decode_reset : decode (0x00000005#32 ++ 0x00000004#32 ++ 0x00000003#32 ++ 0x00000002#32 ++ 0x00000001#32 ++
    0b00001000#8 : BitVec 168) = .reset := by decide

theorem test_decode_reserved : decode (0x00000005#32 ++ 0x00000004#32 ++ 0x00000003#32 ++ 0x00000002#32 ++
    0x00000001#32 ++ 0b00001001#8 : BitVec 168) = .reserved 0x09 := by decide

/-- V-ENC: the first bytes of `MARK -10, 3, -5, 3` on a byte link. -/
theorem test_encodeBytes_mark : (encodeBytes (.mark (-10) 3 (-5) 3)).take 3 = [0x05, 0xF6, 0xFF] := by decide

/-- V-ENC: the response word of GETDIRTY with Rect(0,0,1,0). -/
theorem test_response_word : Response.word { status := .ok, flag := true, r0 := 0, r1 := 0, r2 := 1, r3 := 0 } =
    0x000000000000000100000000000000000100 := by decide

theorem test_decodeTableWord_short : decodeTableWord 8 0x06 = some .clrdirty := by decide

/-! ### The commands on the spec's vectors -/

/-- V-CMD-2, V-CMD-3. -/
theorem test_info : rspOf (exec .info (State.powerOn rgb)) = ok false 4 2 24 2 ∧
    rspOf (exec .info (State.powerOn { bit with pw := 128, ph := 64, vw := 128, vh := 64 })) = ok false 128 64 1 1 := by
  decide

/-- V-LOC: PackedBit 20×4 at (19,3) and RGB24 6×2 at (5,1). -/
theorem test_locate : rspOf (exec (.locate 19 3) (State.powerOn bit)) = ok false 11 3 3 0x08 ∧
    rspOf (exec (.locate 5 1) (State.powerOn rgb)) = ok false 33 0 0 0xFFFFFF := by decide

/-- V-LOC: the last nibble of the 256×64 plane, and its neighbour outside. -/
theorem test_locate_nibble : rspOf (exec (.locate 255 63) State.reset) = ok false 8191 1 4 0xF0 ∧
    rspOf (exec (.locate 256 63) State.reset) = some (Response.error .boundsError) := by decide

/-- V-RW-1: both nibbles of the byte 0xAC. -/
theorem test_getpx : rspOf (exec (.getpx 0 0) (holding nib [(0, 0xAC)])) = ok false 0xC 0 0 0 ∧
    rspOf (exec (.getpx 1 0) (holding nib [(0, 0xAC)])) = ok false 0xA 0 0 0 := by decide

/-- P3, steps 4 and 7: the byte order of RGB24, and a pixel outside the plane. -/
theorem test_getpx_rgb : rspOf (exec (.getpx 1 1) (holding rgb [(21, 0x12), (22, 0x34), (23, 0x56)])) =
      ok false 0x123456 0 0 0 ∧
    rspOf (exec (.getpx 6 0) (State.powerOn rgb)) = some (Response.error .boundsError) := by decide

/-- V-RW-2: an odd nibble, its neighbour kept. -/
theorem test_setpx : left (exec (.setpx 1 0 0x17) (holding nib [(0, 0xA3)])) =
    some ([(0, 0x73)], box 1 0 1 0) := by decide

/-- P3, steps 3 and 6: truncation and byte order, and a plane pixel outside the viewport. -/
theorem test_setpx_rgb : left (exec (.setpx 1 1 0xFF123456) (holding rgb [])) =
      some ([(21, 0x12), (22, 0x34), (23, 0x56)], box 1 1 1 1) ∧
    exec (.setpx 5 0 1) (holding rgb []) = .next ((holding rgb []).withRsp (some (Response.error .boundsError))) := by
  exact ⟨by decide, rfl⟩

/-- P2, step 2, and V-FILL-6. -/
theorem test_fill : left (exec (.fill 3 1 12 2 1) (holding bit [])) =
      some ([(3, 0xF8), (4, 0x1F), (6, 0xF8), (7, 0x1F)], box 3 1 12 2) ∧
    left (exec (.fill 100 0 (-100) 0 1) (holding bit [])) = some ([], DirtyReg.empty) := by decide

/-- V-FILL-7 and V-FILL-9. -/
theorem test_fill_row : left (exec (.fill 0 2 4 2 3) (holding nib [])) =
      some ([(6, 0x33), (7, 0x33), (8, 0x03)], box 0 2 4 2) ∧
    rspOf (exec (.fill 0 0 4 0 1) (holding rgb [])) = some (Response.error .boundsError) := by decide

/-- V-DIRTY-2 after V-DIRTY-1: an inverted rectangle is ordered, then merged. -/
theorem test_mark : left (exec (.mark 100 5 3 50) ((holding Params.example256x64 []).withDirty (box 10 20 30 40))) =
    some ([], box 3 5 100 50) := by decide

/-- V-DIRTY-4 after V-DIRTY-3, and the two ends of the coordinate range. -/
theorem test_mark_clamps : left (exec (.mark 300 70 400 80)
      ((holding Params.example256x64 []).withDirty (box 0 0 100 50))) = some ([], box 0 0 255 63) ∧
    left (exec (.mark 2147483647 0 (-2147483648) 0) (holding Params.example256x64 [])) = some ([], box 0 0 255 0) := by
  decide

/-- V-DIRTY-6. -/
theorem test_clrdirty : left (exec .clrdirty State.reset) = some ([], DirtyReg.empty) := by decide

/-- V-CMD-7 and V-DIRTY-6. -/
theorem test_getdirty : rspOf (exec .getdirty State.reset) = ok true 0 0 255 63 ∧
    rspOf (exec .getdirty (holding Params.example256x64 [])) = ok false 0 0 0 0 := by decide

/-- V-CMD-10. -/
theorem test_reset : left (exec .reset (holding rgb [(21, 0x12)])) = some ([], box 0 0 3 1) := by decide

/-- V-CMD-9. -/
theorem test_reserved : exec (decode 0x0000000500000004000000030000000200000001FF) (holding nib [(1, 0xC7)]) =
    .next ((holding nib [(1, 0xC7)]).withRsp (some (Response.error .illegalOp))) := by rfl

/-- The host's question: a word stored for the next step is the instruction that step performs. -/
theorem test_withFetchWord : rspOf (step (State.reset.withFetchWord 168 0x000000000000000000000000000000010000000301)) =
    ok false 129 1 4 0xF0 := by decide

/-- R161: the command offered while a response waits is held, and performed once the response is taken. -/
theorem test_port_holds : step (((State.powerOn nib).withRsp (ok true 1 2 3 4)).withOffered [0x06]) =
    .next ((State.powerOn nib).withOffered [0x06]) := by rfl

/-- R133: a parameter set at the upper bound of VRAM_SIZE, one beyond it, and a reserved format code. -/
theorem test_elaborate :
    (elaborate { formatCode := 1, pw := 2147483647, ph := 16, vw := 1, vh := 1, colorDepth := none }).isOk = true ∧
    (elaborate { formatCode := 1, pw := 2147483647, ph := 17, vw := 1, vh := 1, colorDepth := none }).isOk = false ∧
    (elaborate { formatCode := 3, pw := 1, ph := 1, vw := 1, vh := 1, colorDepth := none }).isOk = false ∧
    (elaborate { formatCode := 0, pw := 5, ph := 3, vw := 6, vh := 3, colorDepth := none }).isOk = false := by
  decide

/-! ### Witnesses: for each statement with hypotheses, concrete data that meets them, one for each clause at its boundary -/

/-- The state of P4 after step 5. -/
def nibState : State := (holding nib [(1, 0xC7), (2, 0x0A)]).withDirty (box 2 0 4 0)

/-- The state of P2 after step 3. -/
def bitState : State := (holding bit [(3, 0xD8), (4, 0x1F), (6, 0xF8), (7, 0x1F)]).withDirty (box 3 1 12 2)

/-- The state of P3 after step 9. -/
def rgbState : State := (holding rgb [(21, 0x12), (22, 0x34), (23, 0x56)]).withDirty (box 1 1 1 1)

theorem test_witness_inv_nibState : StateInv nibState :=
  ⟨by decide, by decide, by decide, by decide, by decide, by decide⟩

theorem test_witness_inv_bitState : StateInv bitState :=
  ⟨by decide, by decide, by decide, by decide, by decide, by decide⟩

theorem test_witness_inv_rgbState : StateInv rgbState :=
  ⟨by decide, by decide, by decide, by decide, by decide, by decide⟩

theorem test_witness_CmdFieldsReachTheCommand : (0x08 : Byte) = 0x08 ∧ 9 ≤ (0x09 : Byte).toNat ∧
    9 ≤ (0xFF : Byte).toNat := by decide

theorem test_witness_DecodeInvertsEncode : (Instr.setpx 0xFFFFFFFF 0x80000000 0xFFFFFFFF).wellFormed = true ∧
    (Instr.fill 0 0xFFFFFFFF 0x7FFFFFFF 0x80000000 0xFFFFFFFF).wellFormed = true ∧
    (Instr.reserved 0x09).wellFormed = true := by decide

theorem test_witness_ByteLinkCarriesWords : (List.replicate 20 (0 : Byte)).length < 21 ∧ ([] : List Byte).length < 21 := by
  decide

/-- One response for each status, and one with every result set. -/
theorem test_witness_ResponseWordFields : Response.okPlain.status = .ok ∧
    (Response.error .boundsError).status = .boundsError ∧ (Response.error .illegalOp).status = .illegalOp := by decide

/-- One performed command for each clause: an error, GETPX, and a command without results. -/
theorem test_witness_UndefinedResultFieldsAreZero :
    (∃ t r, exec (.getpx 5 0) nibState = .next t ∧ t.rsp = some r ∧ r.status ≠ .ok) ∧
    (∃ t, exec (.getpx 4 0) nibState = .next t) ∧ (∃ t, exec .clrdirty nibState = .next t) :=
  ⟨⟨_, _, rfl, rfl, by decide⟩, ⟨_, rfl⟩, ⟨_, rfl⟩⟩

theorem test_witness_FormatConstants : 3 ≤ 3 := by decide

/-- A legal set at the greatest VRAM_SIZE, and sets that break one bound each. -/
theorem test_witness_ElaborationAcceptsExactlyLegalSets :
    (∃ f, formatOfCode 1 = some f ∧ (1 : Int) ≤ 2147483647 ∧ (1 : Int) ≤ 16 ∧
      ((2147483647 : Int) * bitsPerPixel f + 7) / 8 * 16 ≤ 2 ^ 32) ∧
    (¬ ∃ f, formatOfCode 1 = some f ∧ ((2147483647 : Int) * bitsPerPixel f + 7) / 8 * 17 ≤ 2 ^ 32) ∧
    (¬ ∃ f, formatOfCode 3 = some f) := by
  refine ⟨⟨.packedBit, by decide⟩, ?_, ?_⟩
  · rintro ⟨f, hf, h⟩
    cases hf
    revert h
    decide
  · rintro ⟨f, hf⟩
    cases hf

theorem test_witness_IllegalInstanceAcceptsNothing : ¬ Params.legal (State.powerOn broken).params := by decide

theorem test_witness_ParametersNeverChange : ∃ t, step (nibState.withOffered [0x08]) = .next t := ⟨_, rfl⟩

/-- A legal instance, and a state of it with `rst` asserted. -/
theorem test_witness_PowerOnState : Params.legal rgb ∧ (rgbState.withPins [⟨true, false⟩]).params = rgb ∧
    (rgbState.withPins [⟨true, false⟩]).pinsNow.rst = true := by decide

theorem test_witness_ResetInputComesFirst : Params.legal (nibState.withPins [⟨true, false⟩]).params ∧
    (nibState.withPins [⟨true, false⟩]).pinsNow.rst = true := by decide

theorem test_witness_ResetCommandRestoresPowerOn : Params.legal rgbState.params ∧
    (0x08 : CmdWord).extractLsb' 0 8 = 0x08#8 := by decide

theorem test_witness_ResetIsIdempotent : rgbState.params = (State.powerOn rgb).params ∧
    ∃ t, exec .reset rgbState = .next t := ⟨rfl, _, rfl⟩

theorem test_witness_StepPerformsTheAcceptedCommand : Params.legal (nibState.withOffered [0x07, 0x06]).params ∧
    (nibState.withOffered [0x07, 0x06]).pinsNow.rst = false ∧ (nibState.withOffered [0x07, 0x06]).rsp = none ∧
    (nibState.withOffered [0x07, 0x06]).offered = 0x07 :: [0x06] := by decide

/-- A response held, a response taken, and an idle port. -/
theorem test_witness_ResponseHoldsThePort :
    (Params.legal nibState.params ∧
      (((nibState.withRsp (ok true 1 2 3 4)).withPins [⟨false, false⟩]).pinsNow.rst = false) ∧
      ((nibState.withRsp (ok true 1 2 3 4)).withPins [⟨false, false⟩]).pinsNow.rspReady = false) ∧
    ((nibState.withRsp (ok true 1 2 3 4)).pinsNow.rst = false ∧
      (nibState.withRsp (ok true 1 2 3 4)).pinsNow.rspReady = true) ∧
    (nibState.rsp = none ∧ nibState.offered = [] ∧ nibState.pinsNow.rst = false) := by decide

theorem test_witness_StreamIsServedInOrder : ∃ s : State, StateInv s ∧ s.rsp = none ∧ s.pins = [] ∧
    s.offered = [encode (.setpx 4 2 1), 0x07, 0x08] :=
  ⟨nibState.withOffered [encode (.setpx 4 2 1), 0x07, 0x08],
    ⟨by decide, by decide, by decide, by decide, by decide, by decide⟩, rfl, rfl, rfl⟩

/-- The last pixel of the viewport. -/
theorem test_witness_SetThenGetThroughThePort : ∃ s : State, StateInv s ∧ inViewport s.params (coord 4) (coord 2) ∧
    s.rsp = none ∧ s.pins = [] ∧ s.offered = [encode (.setpx 4 2 0x17), encode (.getpx 4 2)] :=
  ⟨nibState.withOffered [encode (.setpx 4 2 0x17), encode (.getpx 4 2)],
    ⟨by decide, by decide, by decide, by decide, by decide, by decide⟩, by decide, rfl, rfl, rfl⟩

theorem test_witness_InfoReturnsTheConfiguration : (0xFF00 : CmdWord).extractLsb' 0 8 = 0x00#8 ∧
    nibState.params.format = .packedNibble ∧ bitState.params.format = .packedBit ∧ rgbState.params.format = .rgb24 := by
  decide

/-- The corners of the plane of each format, and the coordinates one beyond. -/
theorem test_witness_LocateReturnsThePlace : (0x01 : CmdWord).extractLsb' 0 8 = 0x01#8 ∧
    (Params.legal nib ∧ inPlane nib (coord 4) (coord 2) ∧ inPlane nib (coord 0) (coord 0)) ∧
    (Params.legal bit ∧ inPlane bit (coord 19) (coord 3)) ∧ (Params.legal rgb ∧ inPlane rgb (coord 5) (coord 1)) ∧
    ¬ inPlane nib (coord 5) (coord 0) ∧ ¬ inPlane nib (coord 0) (coord 3) ∧ ¬ inPlane nib (coord 0xFFFFFFFF) (coord 0) ∧
    ¬ inPlane nib (coord 0) (coord 0x80000000) := by decide

/-- The corners of the plane, one beyond, and a plane pixel outside the viewport of a state of the invariant. -/
theorem test_witness_GetpxReturnsThePixel : (0x02 : CmdWord).extractLsb' 0 8 = 0x02#8 ∧ StateInv rgbState ∧
    (Params.legal nibState.params ∧ inPlane nibState.params (coord 4) (coord 2)) ∧
    (Params.legal bitState.params ∧ inPlane bitState.params (coord 19) (coord 3)) ∧
    (Params.legal rgbState.params ∧ inPlane rgbState.params (coord 5) (coord 1)) ∧
    ¬ inPlane rgbState.params (coord 6) (coord 0) ∧ ¬ inPlane rgbState.params (coord 0xFFFFFFFF) (coord 0) ∧
    (inPlane rgbState.params (coord 4) (coord 0) ∧ ¬ inViewport rgbState.params (coord 4) (coord 0)) :=
  ⟨by decide, test_witness_inv_rgbState, by decide⟩

theorem test_witness_GetdirtyReportsTheRegion : (0x07 : CmdWord).extractLsb' 0 8 = 0x07#8 ∧
    (holding nib []).dirty.region = none ∧ rgbState.dirty.region = some ⟨1, 1, 1, 1⟩ := by decide

/-- The last viewport pixel of each format, and pixels one beyond, one of them still inside the plane. -/
theorem test_witness_SetpxWritesThePixelField : (0x03 : CmdWord).extractLsb' 0 8 = 0x03#8 ∧
    (Params.legal nibState.params ∧ Memory.wf nibState.vram ∧ inViewport nibState.params (coord 4) (coord 2)) ∧
    (Params.legal bitState.params ∧ Memory.wf bitState.vram ∧ inViewport bitState.params (coord 19) (coord 3)) ∧
    (Params.legal rgbState.params ∧ Memory.wf rgbState.vram ∧ inViewport rgbState.params (coord 3) (coord 1)) ∧
    ¬ inViewport rgbState.params (coord 4) (coord 1) ∧ ¬ inViewport nibState.params (coord 0) (coord 0xFFFFFFFF) := by
  decide

/-- An empty rectangle by each axis, a rectangle one beyond the viewport, and the whole viewport. -/
theorem test_witness_FillWritesExactlyTheRectangle : (0x04 : CmdWord).extractLsb' 0 8 = 0x04#8 ∧
    (Params.legal rgbState.params ∧ Memory.wf rgbState.vram) ∧
    (coord 1 > coord 0 ∧ coord 0 > coord 0xFFFFFFFF) ∧
    (coord 0 ≤ coord 4 ∧ coord 0 ≤ coord 1 ∧ ¬ inViewport rgbState.params (coord 4) (coord 1)) ∧
    (coord 0 ≤ coord 3 ∧ coord 0 ≤ coord 1 ∧ inViewport rgbState.params (coord 0) (coord 0) ∧
      inViewport rgbState.params (coord 3) (coord 1)) ∧
    (∃ px py : Int, inPlane rgbState.params px py ∧ ¬ (coord 0 ≤ px ∧ px ≤ coord 3)) ∧
    (∃ k, nib.pw * bitsPerPixel nib.format ≤ k ∧ k < 8 * Params.stride nib) := by
  exact ⟨by decide, by decide, by decide, by decide, by decide, ⟨4, 0, by decide⟩, ⟨20, by decide⟩⟩

/-- Two pixels of one byte, and two in different rows. -/
theorem test_witness_WritingAPixelLeavesTheOthers : Memory.wf nibState.vram ∧ inPlane nib 2 0 ∧ inPlane nib 3 0 ∧
    ((3 : Int), (0 : Int)) ≠ (2, 0) ∧ inPlane nib 2 2 ∧ ((2 : Int), (2 : Int)) ≠ (2, 0) := by decide

theorem test_witness_PixelRoundTrip : Memory.wf rgbState.vram ∧ inPlane rgb 5 1 ∧ inPlane rgb 0 0 := by decide

/-- Two memories that agree on the three bytes of a pixel and differ in another byte. -/
theorem test_witness_PixelPlaneUsesOnlyThePixelBytes : inPlane rgb 1 1 ∧ Memory.wf rgbState.vram ∧
    Memory.wf [(0, 7), (21, 0x12), (22, 0x34), (23, 0x56)] ∧
    ∀ a ∈ pixelBytes rgb 1 1, Memory.read rgbState.vram a =
      Memory.read [(0, 7), (21, 0x12), (22, 0x34), (23, 0x56)] a := by decide

theorem test_witness_AccessesStayInTheirRow : 4 < nib.pw ∧ 2 < nib.ph ∧ nib.format ≠ .rgb24 ∧ 5 < rgb.pw ∧ 1 < rgb.ph := by
  decide

/-- An access that ends at the last byte. -/
theorem test_witness_MemReadInvertsMemWrite : Memory.wf rgbState.vram ∧ 33 + 3 ≤ Params.vramSize rgb := by decide

/-- An empty region and a rectangle; a box that holds both. -/
theorem test_witness_MarkDirtyIsTheSmallestBox : Params.legal rgb ∧ dirtyLegal rgb DirtyReg.empty ∧
    DirtyReg.empty.region = none ∧ dirtyLegal rgb (box 1 1 1 1) ∧ (box 1 1 1 1).region = some ⟨1, 1, 1, 1⟩ ∧
    (markDirty rgb (box 1 1 1 1) 9 0 2 0).region = some ⟨1, 0, 3, 1⟩ := by decide

theorem test_witness_MarkMergesTheRectangle : (0x05 : CmdWord).extractLsb' 0 8 = 0x05#8 := by decide

theorem test_witness_ClrdirtyEmptiesTheRegion : (0x06 : CmdWord).extractLsb' 0 8 = 0x06#8 := by decide

theorem test_witness_DirtyRegionOnlyGrows : StateInv rgbState ∧ (∃ t, exec (.mark 9 0 2 0) rgbState = .next t) ∧
    Instr.mark 9 0 2 0 ≠ .clrdirty ∧ rgbState.dirty.region = some ⟨1, 1, 1, 1⟩ :=
  ⟨test_witness_inv_rgbState, ⟨_, rfl⟩, by decide, by decide⟩

/-- A RESET offered to a state with a drawn pixel. -/
theorem test_witness_ChangedPixelsAreDirty : ∃ s t : State, StateInv s ∧ step s = .next t ∧ inPlane s.params 1 1 ∧
    readPixel s.params t.vram 1 1 ≠ readPixel s.params s.vram 1 1 :=
  ⟨rgbState.withOffered [0x08], _, ⟨by decide, by decide, by decide, by decide, by decide, by decide⟩, rfl,
    by decide, by decide⟩

/-- A sequence with each of the three commands that write. -/
theorem test_witness_WrittenPixelsStayDirty : StateInv rgbState ∧
    (∃ t rs, performAll [.reset, .fill 0 0 3 1 1, .setpx 3 1 7] rgbState = some (t, rs)) ∧
    Instr.clrdirty ∉ [Instr.reset, .fill 0 0 3 1 1, .setpx 3 1 7] ∧
    writesPixel rgbState.params (.setpx 3 1 7) 3 1 ∧ writesPixel rgbState.params (.fill 0 0 3 1 1) 3 1 ∧
    writesPixel rgbState.params .reset 3 1 :=
  ⟨test_witness_inv_rgbState, ⟨_, _, rfl⟩, by decide, by simp only [writesPixel]; decide,
    by simp only [writesPixel]; decide, by simp only [writesPixel]; decide⟩

theorem test_witness_ReservedOpAnswersIllegalOp : 9 ≤ (0x09 : Byte).toNat ∧ 9 ≤ (0xFF : Byte).toNat := by decide

/-- Each command that raises the error, one beyond its bound, and at its bound. -/
theorem test_witness_BoundsErrorExactlyOutOfBounds : Params.legal rgbState.params ∧ Memory.wf rgbState.vram ∧
    raisesBounds rgb (.locate 6 0) ∧ ¬ raisesBounds rgb (.locate 5 1) ∧ raisesBounds rgb (.getpx 0 2) ∧
    ¬ raisesBounds rgb (.getpx 5 1) ∧ raisesBounds rgb (.setpx 4 0 1) ∧ ¬ raisesBounds rgb (.setpx 3 1 1) ∧
    raisesBounds rgb (.fill 0 0 4 0 1) ∧ ¬ raisesBounds rgb (.fill 9 0 8 0 1) ∧ ¬ raisesBounds rgb (.fill 0 0 3 1 1) := by
  simp only [raisesBounds]
  refine ⟨by decide, by decide, by decide, by decide, by decide, by decide, by decide, by decide, by decide, by decide,
    by decide⟩

theorem test_witness_ErrorsChangeNothing :
    (∃ t r, exec (.setpx 4 0 1) rgbState = .next t ∧ t.rsp = some r ∧ r.status ≠ .ok) ∧
    (∃ t r, exec (.reserved 0x09) rgbState = .next t ∧ t.rsp = some r ∧ r.status ≠ .ok) :=
  ⟨⟨_, _, rfl, rfl, by decide⟩, ⟨_, _, rfl, rfl, by decide⟩⟩

theorem test_witness_OnlyTheListedCommandsWrite :
    ((∃ t, exec (.mark 0 0 1 1) rgbState = .next t) ∧ writesVram (.mark 0 0 1 1) = false) ∧
    ((∃ t, exec .getdirty rgbState = .next t) ∧ changesNoState .getdirty = true) :=
  ⟨⟨⟨_, rfl⟩, by decide⟩, ⟨⟨_, rfl⟩, by decide⟩⟩

theorem test_witness_ReadsAreSilentAndCommandsRepeat : StateInv rgbState ∧ (∃ t, exec .info rgbState = .next t) ∧
    (∃ t, exec (.locate 5 1) rgbState = .next t) ∧ (∃ t, exec (.getpx 6 0) rgbState = .next t) ∧
    (∃ t, exec .getdirty rgbState = .next t) ∧ (∃ t, exec (.fill 0 0 3 1 1) rgbState = .next t) :=
  ⟨test_witness_inv_rgbState, ⟨_, rfl⟩, ⟨_, rfl⟩, ⟨_, rfl⟩, ⟨_, rfl⟩, ⟨_, rfl⟩⟩

theorem test_witness_PowerOnMeetsTheInvariant : Params.legal nib ∧ Params.legal bit ∧ Params.legal rgb := by decide

theorem test_witness_EveryStepKeepsTheInvariant : ∃ s t : State, StateInv s ∧ step s = .next t ∧ t.vram ≠ s.vram :=
  ⟨bitState.withOffered [encode (.setpx 19 3 1)], _,
    ⟨by decide, by decide, by decide, by decide, by decide, by decide⟩, rfl, by decide⟩

theorem test_witness_EveryCommandResponds : StateInv bitState := test_witness_inv_bitState

theorem test_witness_PseudoCommandsExpand : Params.legal Params.example256x64 := by decide

end Sys2Proof.Tests
end

section
/-! Elaboration (spec/00_scope.md R11, spec/60_exceptions.md R133): the integer conditions of R11 on a raw parameter
set are `Params.legal` of the natural-number parameters that it stands for. -/

namespace Sys2Proof.Machine

/-- The parameters that the raw set `r` stands for when its format code is that of `f`; a negative dimension is read as 0. -/
def RawParams.withFormat (r : RawParams) (f : PixelFormat) : Params :=
  { format := f, pw := r.pw.toNat, ph := r.ph.toNat, vw := r.vw.toNat, vh := r.vh.toNat,
    colorDepth := r.colorDepth.getD (BitVec.ofNat 32 (bitsPerPixel f)) }

/-- No dimension of the raw set is negative. -/
def RawParams.nonneg (r : RawParams) : Prop := 0 ≤ r.pw ∧ 0 ≤ r.ph ∧ 0 ≤ r.vw ∧ 0 ≤ r.vh

/-- R11 for a raw set of format `f`, over the integers. -/
def RawParams.legalAs (r : RawParams) (f : PixelFormat) : Prop :=
  1 ≤ r.pw ∧ 1 ≤ r.ph ∧ 1 ≤ r.vw ∧ r.vw ≤ r.pw ∧ 1 ≤ r.vh ∧ r.vh ≤ r.ph ∧
    r.pw ≤ 2 ^ 31 - 1 ∧ r.ph ≤ 2 ^ 31 - 1 ∧ (r.pw * bitsPerPixel f + 7) / 8 * r.ph ≤ 2 ^ 32

theorem checked_of_nonneg {r : RawParams} {f : PixelFormat} (hf : formatOfCode r.formatCode = some f)
    (hn : RawParams.nonneg r) : RawParams.checked r = some (RawParams.withFormat r f) := by
  simp only [RawParams.checked, hf]
  exact if_pos hn

theorem checked_eq_some {r : RawParams} {p : Params} (h : RawParams.checked r = some p) :
    ∃ f, formatOfCode r.formatCode = some f ∧ RawParams.nonneg r ∧ p = RawParams.withFormat r f := by
  unfold RawParams.checked at h
  split at h
  · cases h
  next f hf =>
    split at h
    next hn =>
      cases h
      exact ⟨f, hf, hn, rfl⟩
    · cases h

/-- For dimensions that are not negative, VRAM_SIZE over the natural numbers is R8's product over the integers. -/
theorem vramSize_withFormat {r : RawParams} (hn : RawParams.nonneg r) (f : PixelFormat) :
    (Params.vramSize (RawParams.withFormat r f) : Int) = (r.pw * bitsPerPixel f + 7) / 8 * r.ph := by
  obtain ⟨hpw, hph, -, -⟩ := hn
  simp [Params.vramSize, Params.stride, RawParams.withFormat, Int.toNat_of_nonneg hpw, Int.toNat_of_nonneg hph]

theorem legalAs_nonneg {r : RawParams} {f : PixelFormat} (h : RawParams.legalAs r f) : RawParams.nonneg r := by
  obtain ⟨hpw, hph, hvw, -, hvh, -⟩ := h
  exact ⟨by omega, by omega, by omega, by omega⟩

theorem legal_withFormat {r : RawParams} (hn : RawParams.nonneg r) (f : PixelFormat) :
    Params.legal (RawParams.withFormat r f) ↔ RawParams.legalAs r f := by
  have hsize := vramSize_withFormat hn f
  obtain ⟨hpw, hph, hvw, hvh⟩ := hn
  unfold Params.legal RawParams.legalAs
  rw [← hsize]
  simp only [RawParams.withFormat]
  omega

theorem elaborate_of_legalAs {r : RawParams} {f : PixelFormat} (hf : formatOfCode r.formatCode = some f)
    (h : RawParams.legalAs r f) : elaborate r = .ok (State.powerOn (RawParams.withFormat r f)) := by
  have hn := legalAs_nonneg h
  simp only [elaborate, checked_of_nonneg hf hn]
  exact if_pos ((legal_withFormat hn f).mpr h)

theorem elaborate_of_not_legalAs {r : RawParams}
    (h : ¬ ∃ f, formatOfCode r.formatCode = some f ∧ RawParams.legalAs r f) :
    elaborate r = .error .invalidDimensions := by
  unfold elaborate
  split
  · rfl
  next p hp =>
    obtain ⟨f, hf, hn, rfl⟩ := checked_eq_some hp
    exact if_neg fun hl => h ⟨f, hf, (legal_withFormat hn f).mp hl⟩

/-- The parameters of an elaborated block are the raw set's, COLOR_DEPTH defaulting to BPP (R9). -/
theorem withFormat_fields {r : RawParams} (hn : RawParams.nonneg r) (f : PixelFormat) :
    (RawParams.withFormat r f).format = f ∧
    ((RawParams.withFormat r f).pw : Int) = r.pw ∧ ((RawParams.withFormat r f).ph : Int) = r.ph ∧
    ((RawParams.withFormat r f).vw : Int) = r.vw ∧ ((RawParams.withFormat r f).vh : Int) = r.vh ∧
    (RawParams.withFormat r f).colorDepth = r.colorDepth.getD (BitVec.ofNat 32 (bitsPerPixel f)) := by
  obtain ⟨hpw, hph, hvw, hvh⟩ := hn
  exact ⟨rfl, Int.toNat_of_nonneg hpw, Int.toNat_of_nonneg hph, Int.toNat_of_nonneg hvw, Int.toNat_of_nonneg hvh, rfl⟩

/-- Settles O9: a raw set meets R11 over the integers exactly when its dimensions are not negative and the parameters it stands
for are legal (`legal_withFormat`), which is what elaboration checks. -/
theorem elaborationAcceptsExactlyLegalSets : Obligations.ElaborationAcceptsExactlyLegalSets := by
  intro r
  refine ⟨?_, elaborate_of_not_legalAs⟩
  rintro ⟨f, hf, h⟩
  obtain ⟨hformat, hpw, hph, hvw, hvh, hdepth⟩ := withFormat_fields (legalAs_nonneg h) f
  refine ⟨f, RawParams.withFormat r f, hf, elaborate_of_legalAs hf h, hformat, hpw, hph, hvw, hvh, hdepth.trans ?_⟩
  cases r.colorDepth <;> rfl

end Sys2Proof.Machine
end

section
/-! Every command keeps the machine's invariant (spec/10_state.md R23, R30): one lemma over the effects of a command. -/

namespace Sys2Proof.Machine

theorem rowBit_zeroFill (p : Params) (y k : Nat) : rowBit p zeroFill y k = false :=
  BitVec.getLsbD_zero

theorem readPixel_zeroFill {p : Params} {x y : Int} (h : inPlane p x y) : readPixel p zeroFill x y = .ok 0 := by
  obtain ⟨v, e, hbits⟩ := readPixel_inPlane (m := zeroFill) h
  have hv : v = 0 := BitVec.eq_of_getLsbD_eq fun i _ => by simp [hbits, rowBit_zeroFill]
  rw [e, hv]

/-- A zeroed VRAM with a legal dirty register meets the invariant. -/
theorem stateInv_zeroed {t : State} (hl : Params.legal t.params) (hv : t.vram = zeroFill)
    (hd : dirtyLegal t.params t.dirty) : StateInv t where
  legal := hl
  wf := by simp [hv, zeroFill, Memory.wf]
  inside := by simp [hv, zeroFill, vramInside]
  dirty := hd
  outside := fun y hy x hx _ => hv ▸ readPixel_zeroFill ⟨by omega, by omega, by omega, by omega⟩
  padding := fun y _ k _ _ => hv ▸ rowBit_zeroFill t.params y k

/-- The invariant speaks of the constants, VRAM and the dirty register alone. -/
theorem StateInv.of_same_vram {s t : State} (h : StateInv s) (hp : t.params = s.params) (hv : t.vram = s.vram)
    (hd : dirtyLegal s.params t.dirty) : StateInv t := by
  obtain ⟨hl, hw, hi, -, ho, hz⟩ := h
  constructor <;> simp only [hp, hv] <;> assumption

/-- A fill inside the viewport writes no pixel outside it (R30). -/
theorem Filled.outsidePixelsZero {p : Params} {m m' : Memory} {x0 x1 y0 y1 : Nat} {value : Word}
    (f : Filled p m m' x0 x1 y0 y1 value) (hx : x1 ≤ p.vw) (hy : y1 ≤ p.vh)
    (h : Sys2Proof.Machine.outsidePixelsZero p m) : Sys2Proof.Machine.outsidePixelsZero p m' := by
  intro y hyp x hxp hout
  rw [f.readPixel ⟨by omega, by omega, by omega, by omega⟩, if_neg (by omega)]
  exact h y hyp x hxp hout

/-- A fill inside the plane writes no padding bit (R30). -/
theorem Filled.paddingZero {p : Params} {m m' : Memory} {x0 x1 y0 y1 : Nat} {value : Word}
    (f : Filled p m m' x0 x1 y0 y1 value) (hx : x1 ≤ p.pw) (h : Sys2Proof.Machine.paddingZero p m) :
    Sys2Proof.Machine.paddingZero p m' := by
  intro y hy k hk hpad
  have hbeyond : p.pw ≤ k / bitsPerPixel p.format := (Nat.le_div_iff_mul_le (bitsPerPixel_pos p.format)).mpr hpad
  rw [f.bits y k hk, if_neg (by omega)]
  exact h y hy k hk hpad

/-- Every command keeps the machine's invariant. -/
theorem Effect.keeps_stateInv {i : Instr} {s t : State} (h : Effect s i t) (hs : StateInv s) : StateInv t := by
  cases h with
  | answers => exact hs.of_same_vram rfl rfl hs.dirty
  | @draws _ m x0 y0 x1 y1 value h0 h1 hx hy _ filled =>
    obtain ⟨-, hx1, -, hy1⟩ := h1
    obtain ⟨-, hvw, -, -⟩ := legal_viewport hs.legal
    exact {
      legal := hs.legal
      wf := filled.wf
      inside := filled.inside hs.inside
      dirty := dirtyLegal_markDirty hs.legal hs.dirty x0 y0 x1 y1
      outside := filled.outsidePixelsZero (by omega) (by omega) hs.outside
      padding := filled.paddingZero (by omega) hs.padding }
  | marks => exact hs.of_same_vram rfl rfl (dirtyLegal_markDirty hs.legal hs.dirty _ _ _ _)
  | clears => exact hs.of_same_vram rfl rfl (dirtyLegal_empty _)
  | resets => exact stateInv_zeroed hs.legal rfl (dirtyLegal_markDirty hs.legal (dirtyLegal_empty _) _ _ _ _)

end Sys2Proof.Machine
end

section
/-! The elaboration parameters along steps (spec/10_state.md R21), and the dirty region along commands (R24, R31): what one
effect does to the region, and the induction over a sequence of commands. -/

namespace Sys2Proof.Machine

/-! ### The elaboration parameters -/

/-- Settles O11: by the ways a step can go on (`step_cases`); the command it may perform keeps them (`exec_keeps`). -/
theorem parametersNeverChange : Obligations.ParametersNeverChange := by
  intro s t h
  obtain ⟨-, ⟨-, rfl⟩ | ⟨-, ⟨r, -, rfl⟩ | ⟨-, -, rfl⟩ | ⟨-, w, ws, -, he⟩⟩⟩ := step_cases h
  case inl => rfl
  case inr.inl => split <;> rfl
  case inr.inr.inl => rfl
  case inr.inr.inr =>
    obtain ⟨hp, -, -, -⟩ := exec_keeps he
    exact hp

/-! ### One command and the dirty region -/

/-- The register holds a region that contains the rectangle `r`. -/
def DirtyReg.Covers (d : DirtyReg) (r : Rect) : Prop :=
  ∃ r', d.region = some r' ∧ ∀ px py, r.contains px py → r'.contains px py

theorem covers_of_region {d : DirtyReg} {r : Rect} (h : d.region = some r) : d.Covers r :=
  ⟨r, h, fun _ _ => id⟩

/-- Marking keeps the region there was (R121). -/
theorem markDirty_covers_old {p : Params} {d : DirtyReg} {r : Rect} (hl : Params.legal p) (hd : dirtyLegal p d)
    (hr : d.region = some r) (x0 y0 x1 y1 : Int) : (markDirty p d x0 y0 x1 y1).Covers r := by
  refine ⟨r.union (clampRect p x0 y0 x1 y1), by rw [region_markDirty hl hd, hr], fun px py h => ?_⟩
  simp only [Rect.contains, Rect.union] at h ⊢
  omega

/-- Marking takes in the clamped rectangle (R121). -/
theorem markDirty_covers_clampRect {p : Params} {d : DirtyReg} (hl : Params.legal p) (hd : dirtyLegal p d)
    (x0 y0 x1 y1 : Int) : (markDirty p d x0 y0 x1 y1).Covers (clampRect p x0 y0 x1 y1) := by
  refine ⟨_, region_markDirty hl hd x0 y0 x1 y1, fun px py h => ?_⟩
  cases d.region with
  | none => exact h
  | some r =>
    simp only [Rect.contains, Rect.union] at h ⊢
    omega

/-- The reset sequence marks every viewport pixel (R151). -/
theorem resetSequence_dirty_viewport {s : State} (hl : Params.legal s.params) :
    ∃ r, (resetSequence s).dirty.region = some r ∧ ∀ px py, inViewport s.params px py → r.contains px py := by
  obtain ⟨r, hr, hsub⟩ := markDirty_covers_clampRect hl (dirtyLegal_empty s.params) 0 0
    ((s.params.vw : Int) - 1) ((s.params.vh : Int) - 1)
  refine ⟨r, hr, fun px py hin => hsub px py ?_⟩
  simp only [Rect.contains, clampRect, clamp]
  omega

/-- Every command but CLRDIRTY keeps the region there was (R24). -/
theorem Effect.covers_old {i : Instr} {s t : State} {r : Rect} (h : Effect s i t) (hs : StateInv s)
    (hi : i ≠ .clrdirty) (hr : s.dirty.region = some r) : t.dirty.Covers r := by
  cases h with
  | answers => exact covers_of_region hr
  | draws => exact markDirty_covers_old hs.legal hs.dirty hr _ _ _ _
  | marks => exact markDirty_covers_old hs.legal hs.dirty hr _ _ _ _
  | clears => exact absurd rfl hi
  | resets =>
    obtain ⟨hx0, -, hx1, hy0, -, hy1⟩ := dirtyLegal_region hs.dirty hr
    obtain ⟨r', hr', hall⟩ := resetSequence_dirty_viewport hs.legal
    refine ⟨r', hr', fun px py hin => hall px py ?_⟩
    simp only [Rect.contains] at hin
    omega

/-- The pixels a command writes lie in the region after it (R31). -/
theorem Effect.written_dirty {i : Instr} {s t : State} {px py : Int} (h : Effect s i t) (hs : StateInv s)
    (hw : writesPixel s.params i px py) : ∃ r, t.dirty.region = some r ∧ r.contains px py := by
  cases h with
  | answers silent => exact absurd hw (silent px py)
  | @draws _ m x0 y0 x1 y1 value h0 h1 hx hy written filled =>
    obtain ⟨r, hr, hsub⟩ := markDirty_covers_clampRect hs.legal hs.dirty x0 y0 x1 y1
    rw [clampRect_of_inViewport h0 h1 hx hy] at hsub
    exact ⟨r, hr, hsub px py ((written px py).mp hw)⟩
  | marks => exact hw.elim
  | clears => exact hw.elim
  | resets =>
    obtain ⟨r, hr, hall⟩ := resetSequence_dirty_viewport hs.legal
    exact ⟨r, hr, hall px py hw⟩

/-- Settles O35: the region after each effect but CLRDIRTY's covers the one before it (`Effect.covers_old`). -/
theorem dirtyRegionOnlyGrows : Obligations.DirtyRegionOnlyGrows := by
  intro i s t r hs he hi hr
  exact (exec_next hs.legal hs.wf he).covers_old hs hi hr

/-! ### Sequences of commands -/

/-- A sequence that is performed performs its first command and, once that response is taken, the others. -/
theorem performAll_cons {i : Instr} {is : List Instr} {s u : State} {rs : List Response}
    (h : performAll (i :: is) s = some (u, rs)) :
    ∃ t rs', exec i s = .next t ∧ performAll is t.takeResponse = some (u, rs') := by
  unfold performAll at h
  split at h
  next t he =>
    split at h
    · cases h
    next r _ =>
      split at h
      · cases h
      next v rs' hv =>
        cases h
        exact ⟨t, rs', he, hv⟩
  · cases h
  · cases h

/-- From a state of the invariant, the first command has one of the five effects and the others begin in a state of the
invariant again. -/
theorem performAll_cons_effect {i : Instr} {is : List Instr} {s u : State} {rs : List Response} (hs : StateInv s)
    (h : performAll (i :: is) s = some (u, rs)) :
    ∃ t rs', Effect s i t ∧ StateInv t.takeResponse ∧ performAll is t.takeResponse = some (u, rs') := by
  obtain ⟨t, rs', he, h⟩ := performAll_cons h
  have eff := exec_next hs.legal hs.wf he
  have ht := eff.keeps_stateInv hs
  exact ⟨t, rs', eff, ht.of_same_vram rfl rfl ht.dirty, h⟩

/-- A sequence without CLRDIRTY keeps the region there was. -/
theorem performAll_covers_old {is : List Instr} {s u : State} {rs : List Response} {r : Rect} (hs : StateInv s)
    (h : performAll is s = some (u, rs)) (hc : Instr.clrdirty ∉ is) (hr : s.dirty.region = some r) :
    u.dirty.Covers r := by
  induction is generalizing s r rs with
  | nil =>
    cases h
    exact covers_of_region hr
  | cons i is ih =>
    obtain ⟨t, rs', eff, ht, hrest⟩ := performAll_cons_effect hs h
    rw [List.mem_cons, not_or] at hc
    obtain ⟨hi, hc⟩ := hc
    obtain ⟨r', hr', hsub'⟩ := eff.covers_old hs (Ne.symm hi) hr
    obtain ⟨r'', hr'', hsub''⟩ := ih ht hrest hc hr'
    exact ⟨r'', hr'', fun px py hp => hsub'' px py (hsub' px py hp)⟩

/-- Settles O37, by induction on the sequence: what its first command writes lies in the region after it
(`Effect.written_dirty`), and the others only grow that region (`performAll_covers_old`). -/
theorem writtenPixelsStayDirty : Obligations.WrittenPixelsStayDirty := by
  intro is s u rs i px py hs h hc hi hw
  induction is generalizing s rs with
  | nil => cases hi
  | cons j is ih =>
    obtain ⟨t, rs', eff, ht, hrest⟩ := performAll_cons_effect hs h
    rw [List.mem_cons, not_or] at hc
    obtain ⟨-, hc⟩ := hc
    obtain rfl | hi := List.mem_cons.mp hi
    · obtain ⟨r, hr, hin⟩ := eff.written_dirty hs hw
      obtain ⟨r', hr', hsub⟩ := performAll_covers_old ht hrest hc hr
      exact ⟨r', hr', hsub px py hin⟩
    · obtain ⟨hp, -, -, -⟩ := eff.keeps
      exact ih t.takeResponse rs' ht hrest hc hi (by rwa [State.takeResponse_params, hp])

end Sys2Proof.Machine
end

section
/-! Commands performed twice (spec/20_memory.md R49): no command looks at the response that stands on the port, the reads
leave nothing but their response, and a drawing, a marking, a clearing or a reset repeated at once leaves what the first left. -/

namespace Sys2Proof.Machine

/-! ### The response on the port -/

theorem complete_withRsp (s : State) (r : Option Response) (x : Except Abort State) :
    complete (s.withRsp r) x = complete s x := by
  cases x with
  | ok t => rfl
  | error e => cases e <;> rfl

/-- A command's outcome does not depend on the response that stands on the port. -/
theorem exec_withRsp (i : Instr) (s : State) (r : Option Response) : exec i (s.withRsp r) = exec i s := by
  cases i with
  | info | mark | clrdirty | getdirty | reset | reserved => rfl
  | locate | getpx | setpx | fill => exact complete_withRsp s r _

/-- A command that left nothing but its response answers the same again. -/
theorem exec_again_of_withRsp {i : Instr} {s t : State} (ht : t = s.withRsp t.rsp) (h : exec i s = .next t) :
    exec i t = .next t := by
  rw [ht, exec_withRsp, h, ← ht]

/-! ### The commands that change no state -/

/-- A command that only computes its response, or raises BoundsError, leaves nothing but that response. -/
theorem complete_respond_next {α : Type} {s t : State} {x : Except Abort α} {f : α → Response}
    (h : complete s (x.bind fun a => .ok (s.respond (f a))) = .next t) : t = s.withRsp t.rsp := by
  obtain h | ⟨-, rfl⟩ := complete_next h
  · obtain ⟨a, -, h⟩ := bind_ok_cases h
    cases h
    rfl
  · rfl

/-- The reads and the reserved op codes leave nothing but their response, from every state (R49, spec/41_displaymemory.md
R110). -/
theorem exec_eq_withRsp_of_changesNoState {i : Instr} {s t : State} (hi : changesNoState i = true)
    (h : exec i s = .next t) : t = s.withRsp t.rsp := by
  cases i with
  | locate | getpx => exact complete_respond_next h
  | info | getdirty | reserved => cases h; rfl
  | setpx | fill | mark | clrdirty | reset => cases hi

/-! ### The commands that draw -/

/-- From `u` the command `i` fills the rectangle with `value`, marks it and answers OK. -/
def Draws (i : Instr) (u : State) (x0 y0 x1 y1 : Int) (value : Word) : Prop :=
  ∃ m, exec i u =
      .next (((u.withVram m).withDirty (markDirty u.params u.dirty x0 y0 x1 y1)).respond Response.okPlain) ∧
    Filled u.params u.vram m x0.toNat (x1.toNat + 1) y0.toNat (y1.toNat + 1) value

theorem stride_pos {p : Params} (hl : Params.legal p) : 0 < Params.stride p := by
  obtain ⟨hpw, -⟩ := hl
  have hbits := pixel_bits_in_row (x := 0) hpw
  have hbpp := bitsPerPixel_pos p.format
  omega

/-- A command that draws the same rectangle with the same value from every state of the instance draws nothing new the second
time: the fill finds its own bits (`Filled.again`), the mark its own region (`markDirty_again`). -/
theorem exec_again_of_draws {i : Instr} {s t : State} {x0 y0 x1 y1 : Int} {value : Word} (hs : StateInv s)
    (draws : ∀ u : State, u.params = s.params → Memory.wf u.vram → Draws i u x0 y0 x1 y1 value)
    (h : exec i s = .next t) : exec i t = .next t := by
  have ht := (exec_next hs.legal hs.wf h).keeps_stateInv hs
  obtain ⟨hp, -⟩ := exec_keeps h
  obtain ⟨m, first, filled⟩ := draws s rfl hs.wf
  obtain ⟨m', second, refilled⟩ := draws t hp ht.wf
  cases first.symm.trans h
  have hm : m' = m := filled.again (stride_pos hs.legal) refilled
  have hd := markDirty_again hs.legal hs.dirty x0 y0 x1 y1
  rw [second, hm]
  exact congrArg (fun d => Host.Outcome.next (((s.withVram m).withDirty d).respond Response.okPlain)) hd

theorem exec_setpx_again {s t : State} {x y value : Word} (hs : StateInv s)
    (h : exec (.setpx x y value) s = .next t) : exec (.setpx x y value) t = .next t := by
  cases exec_next hs.legal hs.wf h with
  | answers => exact exec_again_of_withRsp rfl h
  | draws _ _ hx hy written =>
    obtain ⟨hv, -, -⟩ := (written _ _).mpr ⟨le_rfl, hx, le_rfl, hy⟩
    exact exec_again_of_draws hs (fun u hp hm => exec_setpx_inside (hp ▸ hs.legal) hm (hp ▸ hv)) h

theorem exec_fill_again {s t : State} {x0 y0 x1 y1 value : Word} (hs : StateInv s)
    (h : exec (.fill x0 y0 x1 y1 value) s = .next t) : exec (.fill x0 y0 x1 y1 value) t = .next t := by
  cases exec_next hs.legal hs.wf h with
  | answers => exact exec_again_of_withRsp rfl h
  | draws _ _ hx hy written =>
    obtain ⟨h0, h1, hx0, hx1, hy0, hy1⟩ := (written _ _).mpr ⟨le_rfl, hx, le_rfl, hy⟩
    exact exec_again_of_draws hs (fun u hp hm => exec_fill_inside (hp ▸ hs.legal) hm (hx0.trans hx1) (hy0.trans hy1)
      (hp ▸ h0) (hp ▸ h1)) h

/-! ### Every command -/

theorem exec_mark_again {s t : State} {x0 y0 x1 y1 : Word} (hs : StateInv s)
    (h : exec (.mark x0 y0 x1 y1) s = .next t) : exec (.mark x0 y0 x1 y1) t = .next t := by
  cases h
  exact congrArg (fun d => Host.Outcome.next ((s.withDirty d).respond Response.okPlain))
    (markDirty_again hs.legal hs.dirty (coord x0) (coord y0) (coord x1) (coord y1))

/-- From a state of the invariant, a command repeated at once leaves the state and the response of the first time. -/
theorem exec_again {i : Instr} {s t : State} (hs : StateInv s) (h : exec i s = .next t) : exec i t = .next t := by
  cases i with
  | info | locate | getpx | getdirty | reserved =>
    exact exec_again_of_withRsp (exec_eq_withRsp_of_changesNoState rfl h) h
  | setpx => exact exec_setpx_again hs h
  | fill => exact exec_fill_again hs h
  | mark => exact exec_mark_again hs h
  | clrdirty | reset => cases h; rfl

/-- Settles O42: the reads leave nothing but their response (`exec_eq_withRsp_of_changesNoState`), and every command finds
its own work done (`exec_again`). -/
theorem readsAreSilentAndCommandsRepeat : Obligations.ReadsAreSilentAndCommandsRepeat := by
  refine ⟨fun i s t h hi => ?_, fun i s t hs h => exec_again hs h⟩
  obtain rfl | rfl | ⟨x, y, rfl⟩ | ⟨x, y, rfl⟩ := hi <;> exact exec_eq_withRsp_of_changesNoState rfl h

end Sys2Proof.Machine
end

section
/-! Words on a byte-wide link (spec/30_encoding.md R61): for any number of bytes, the writer gives byte `k` of the word its bits
`8k+7 .. 8k`, and the reader gives the word back. -/

namespace Sys2Proof

/-- Byte `k` of the word without its lowest byte is byte `k + 1` of the word. -/
theorem extractLsb'_above_lowest_byte {n k : Nat} (hk : k < n) (w : BitVec (8 * (n + 1))) :
    (w.extractLsb' 8 (8 * n)).extractLsb' (8 * k) 8 = w.extractLsb' (8 * (k + 1)) 8 := by
  apply BitVec.eq_of_getLsbD_eq
  intro i hi
  have hbit : 8 * k + i < 8 * n := by omega
  have hplace : 8 + (8 * k + i) = 8 * (k + 1) + i := by omega
  simp only [BitVec.getLsbD_extractLsb', hi, hbit, hplace, decide_true, Bool.true_and]

/-- The bytes of a word, one by one. -/
theorem bytesOf_eq_map (n : Nat) (w : BitVec (8 * n)) :
    bytesOf n w = (List.range n).map fun k => w.extractLsb' (8 * k) 8 := by
  induction n with
  | zero => rfl
  | succ n ih =>
    rw [bytesOf, ih, List.range_succ_eq_map, List.map_cons, List.map_map]
    congr 1
    exact List.map_congr_left fun k hk => extractLsb'_above_lowest_byte (List.mem_range.mp hk) w

/-- The reader takes back the word that the writer wrote, and leaves what follows it. -/
theorem takeWord_bytesOf_append (n : Nat) (w : BitVec (8 * n)) (rest : List Byte) :
    takeWord n (bytesOf n w ++ rest) = .ok (w, rest) := by
  induction n with
  | zero => rw [BitVec.of_length_zero (x := w)]; rfl
  | succ n ih =>
    simp only [bytesOf, List.cons_append, takeWord, ih]
    rw [BitVec.extractLsb'_append_extractLsb']

/-- A byte string shorter than the word is refused. -/
theorem takeWord_of_length_lt {n : Nat} {bs : List Byte} (h : bs.length < n) : takeWord n bs = .error .truncated := by
  induction n generalizing bs with
  | zero => exact absurd h (Nat.not_lt_zero _)
  | succ n ih =>
    cases bs with
    | nil => rfl
    | cons b bs => simp only [takeWord, ih (Nat.lt_of_succ_lt_succ h)]

/-- Settles O4: the writer's bytes are the bytes R61 names (`bytesOf_eq_map`), the reader inverts the writer
(`takeWord_bytesOf_append`), and it refuses fewer bytes (`takeWord_of_length_lt`). -/
theorem byteLinkCarriesWords : Obligations.ByteLinkCarriesWords := by
  refine ⟨fun w rest => ?_, fun i => bytesOf_eq_map 21 (encode i), fun r => bytesOf_eq_map 18 r.word, fun bs h => ?_⟩
  · rw [← bytesOf_eq_map 21 w, decodeBytes, takeWord_bytesOf_append]
  · rw [decodeBytes, takeWord_of_length_lt h]

end Sys2Proof
end

section
/-! The command words that the spec prints (spec/95_test_vectors.md). -/

namespace Sys2Proof

/-- Settles O5: each word is the one with the fields OP, A, B, C, D and V written here, and decodes by them
(`decode_ofFields`). -/
theorem printedWordsDecode : Obligations.PrintedWordsDecode :=
  ⟨decode_ofFields 0x03 1 0 0 0 0xF, decode_ofFields 0x02 0xFFFFFFFF 0 0 0 0,
    decode_ofFields 0x05 0xFFFFFFF6 3 0xFFFFFFFB 3 0, decode_ofFields 0x04 3 1 12 2 1,
    decode_ofFields 0x01 5 1 0 0 0, decode_ofFields 0x00 1 2 3 4 5,
    decode_ofFields 0x06 0 0 0 0 0, decode_ofFields 0x07 0 0 0 0 0, decode_ofFields 0x08 0 0 0 0 0,
    decode_ofFields 0xFF 1 2 3 4 5⟩

end Sys2Proof
end

section
/-! The pseudo-commands (spec/30_encoding.md R70). -/

namespace Sys2Proof.Machine

/-- The last coordinate of a side of 1 to 2^31 pixels is read back from its word. -/
theorem coord_ofNat_pred {n : Nat} (h0 : 1 ≤ n) (h1 : n ≤ 2 ^ 31) : coord (BitVec.ofNat 32 (n - 1)) = (n : Int) - 1 := by
  rw [← BitVec.ofInt_natCast, coord_ofInt (by omega) (by omega), Nat.cast_pred h0]

/-- Settles O46: the expansions are R70's, and on a legal instance the viewport's sides are small enough for their last
coordinates to be read back (`coord_ofNat_pred`). -/
theorem pseudoCommandsExpand : Obligations.PseudoCommandsExpand := by
  intro p x y v hl
  obtain ⟨-, -, hvw, hvwpw, hvh, hvhph, hpw, hph, -⟩ := hl
  exact ⟨rfl, rfl, ⟨_, _, coord_ofNat_pred hvw (by omega), coord_ofNat_pred hvh (by omega), rfl, rfl⟩, rfl⟩

end Sys2Proof.Machine
end

section
/-! PixelPlane's values and bytes (spec/40_pixelplane.md R82, R86 to R88): a write depends on the low BPP bits of its value
only, changes what its own pixel reads as and no other, and stays within the pixel's own bytes. -/

namespace Sys2Proof.Machine

/-! ### Truncation -/

theorem fieldMask_eq_ofNat (f : PixelFormat) : fieldMask f = BitVec.ofNat 32 (2 ^ bitsPerPixel f - 1) := by
  cases f <;> rfl

theorem toNat_fieldMask (f : PixelFormat) : (fieldMask f).toNat = 2 ^ bitsPerPixel f - 1 := by
  cases f <;> rfl

theorem toNat_trunc (f : PixelFormat) (v : Word) : (trunc f v).toNat = v.toNat % 2 ^ bitsPerPixel f := by
  rw [trunc, BitVec.toNat_and, toNat_fieldMask, Nat.and_two_pow_sub_one_eq_mod]

@[simp] theorem trunc_trunc (f : PixelFormat) (v : Word) : trunc f (trunc f v) = trunc f v := by
  simp only [trunc, BitVec.and_assoc, BitVec.and_self]

/-! ### Every write stores the truncated value -/

theorem writePixel_trunc (p : Params) (m : Memory) (x y : Int) (v : Word) :
    writePixel p m x y (trunc p.format v) = writePixel p m x y v := by
  simp only [writePixel, trunc_trunc]

theorem fillRow_trunc (p : Params) (m : Memory) (x y : Int) (v : Word) (n : Nat) :
    fillRow p m x y (trunc p.format v) n = fillRow p m x y v n := by
  induction n with
  | zero => rfl
  | succ n ih => simp only [fillRow, ih, writePixel_trunc]

theorem fillRows_trunc (p : Params) (m : Memory) (x y : Int) (w : Nat) (v : Word) (h : Nat) :
    fillRows p m x y w (trunc p.format v) h = fillRows p m x y w v h := by
  induction h with
  | zero => rfl
  | succ h ih => simp only [fillRows, ih, fillRow_trunc]

theorem fillRegion_trunc (p : Params) (m : Memory) (x0 y0 x1 y1 : Int) (v : Word) :
    fillRegion p m x0 y0 x1 y1 (trunc p.format v) = fillRegion p m x0 y0 x1 y1 v := by
  simp only [fillRegion, fillRows_trunc]

/-- Settles O26: the field mask is 2^BPP - 1 (`toNat_trunc`), and the writes that SETPX and FILL perform do not see the bits
that truncation drops (`writePixel_trunc`, `fillRegion_trunc`). -/
theorem writesStoreTheTruncatedValue : Obligations.WritesStoreTheTruncatedValue := by
  refine ⟨fun f v => ⟨rfl, toNat_trunc f v⟩, fun s x y v => ?_, fun s x0 y0 x1 y1 v => ?_, by decide⟩
  · simp only [exec, execSetpx, writePixel_trunc]
  · simp only [exec, execFill, fillRegion_trunc]

/-! ### What a write changes of what the pixels read as -/

/-- Settles O27: a write of one pixel is a fill of that pixel alone (`writePixel_filled`), and the other one lies outside what
is filled (`Filled.readPixel`). -/
theorem writingAPixelLeavesTheOthers : Obligations.WritingAPixelLeavesTheOthers := by
  intro p m x y x' y' v hm hxy hxy' hne
  obtain ⟨m', hwrite, filled⟩ := writePixel_filled v hxy hm
  have outside : ¬ ((y.toNat ≤ y'.toNat ∧ y'.toNat < y.toNat + 1) ∧ x.toNat ≤ x'.toNat ∧ x'.toNat < x.toNat + 1) := by
    obtain ⟨hx, -, hy, -⟩ := hxy
    obtain ⟨hx', -, hy', -⟩ := hxy'
    rw [Ne, Prod.mk.injEq] at hne
    omega
  exact ⟨m', hwrite, by rw [filled.readPixel hxy', if_neg outside]⟩

/-- Settles O28: the pixel lies inside what its write fills (`Filled.readPixel`), so it reads as the truncated value. -/
theorem pixelRoundTrip : Obligations.PixelRoundTrip := by
  intro p m x y v hm hxy
  obtain ⟨m', hwrite, filled⟩ := writePixel_filled v hxy hm
  refine ⟨m', hwrite, ?_⟩
  rw [filled.readPixel hxy, if_pos (by omega), trunc, fieldMask_eq_ofNat]

/-! ### The bytes of a pixel -/

/-- Every bit of a pixel's place in its row stands in one of the pixel's bytes. -/
theorem pixel_bit_mem_pixelBytes {p : Params} {x y j : Nat} (hj : j < bitsPerPixel p.format) :
    y * Params.stride p + (x * bitsPerPixel p.format + j) / 8 ∈ pixelBytes p x y := by
  obtain ⟨f, pw, ph, vw, vh, cd⟩ := p
  cases f with
  | packedNibble | packedBit | rgb24 =>
    simp only [pixelBytes, layout, bitsPerPixel, List.mem_cons, List.not_mem_nil, or_false] at *
    omega

/-- Bit `j` of the `q`-th byte of a row is bit `8q + j` of the row. -/
theorem getLsbD_read_row (p : Params) (m : Memory) (y q : Nat) {j : Nat} (hj : j < 8) :
    (Memory.read m (y * Params.stride p + q)).getLsbD j = rowBit p m y (8 * q + j) := by
  have hbyte : (8 * q + j) / 8 = q := by omega
  have hbit : (8 * q + j) % 8 = j := by omega
  rw [rowBit, hbyte, hbit]

/-- Memories that agree on a plane pixel's bytes agree on what the pixel reads as. -/
theorem readPixel_congr {p : Params} {m n : Memory} {x y : Int} (h : inPlane p x y)
    (agree : ∀ a ∈ pixelBytes p x.toNat y.toNat, Memory.read m a = Memory.read n a) :
    readPixel p m x y = readPixel p n x y := by
  obtain ⟨v, hv, bits⟩ := readPixel_inPlane (m := m) h
  obtain ⟨v', hv', bits'⟩ := readPixel_inPlane (m := n) h
  have same : v = v' := by
    apply BitVec.eq_of_getLsbD_eq
    intro i _
    rw [bits, bits']
    by_cases hi : i < bitsPerPixel p.format
    · rw [rowBit, rowBit, agree _ (pixel_bit_mem_pixelBytes (valueBit_lt hi))]
    · simp [hi]
  rw [hv, hv', same]

/-- A completed write leaves memories equal on a byte of VRAM on which they were equal before. -/
theorem Filled.read_congr {p : Params} {m m' n n' : Memory} {x0 x1 y0 y1 : Nat} {value : Word}
    (hm : Filled p m m' x0 x1 y0 y1 value) (hn : Filled p n n' x0 x1 y0 y1 value) {y q : Nat} (hq : q < Params.stride p)
    (agree : Memory.read m (y * Params.stride p + q) = Memory.read n (y * Params.stride p + q)) :
    Memory.read m' (y * Params.stride p + q) = Memory.read n' (y * Params.stride p + q) := by
  apply BitVec.eq_of_getLsbD_eq
  intro j hj
  have hk : 8 * q + j < 8 * Params.stride p := by omega
  rw [getLsbD_read_row p m' y q hj, getLsbD_read_row p n' y q hj, hm.bits y _ hk, hn.bits y _ hk,
    ← getLsbD_read_row p m y q hj, ← getLsbD_read_row p n y q hj, agree]

/-- Settles O29: the pixel's value stands in its bytes (`readPixel_congr`), which its write leaves equal where they were equal
(`Filled.read_congr`), touching no others (`writePixel_inPlane`). -/
theorem pixelPlaneUsesOnlyThePixelBytes : Obligations.PixelPlaneUsesOnlyThePixelBytes := by
  intro p m n x y v hxy hm hn agree
  have hx : x.toNat < p.pw := by obtain ⟨h0, h1, -⟩ := hxy; omega
  obtain ⟨m', hwm, fm⟩ := writePixel_filled v hxy hm
  obtain ⟨n', hwn, fn⟩ := writePixel_filled v hxy hn
  refine ⟨readPixel_congr hxy agree, m', n', hwm, hwn, fun a ha => ?_,
    fun a ha => fm.bytes a fun px py h1 h2 h3 h4 => ?_⟩
  · obtain ⟨q, hq, rfl⟩ := pixelBytes_in_row hx ha
    exact fm.read_congr fn hq (agree _ ha)
  · obtain rfl : px = x.toNat := by omega
    obtain rfl : py = y.toNat := by omega
    exact ha

end Sys2Proof.Machine
end

section
/-! A command from the fields of its word: op code and operands as the bits of a word that R60 names (spec/30_encoding.md R60,
R65). -/

namespace Sys2Proof

/-- A word decodes as the word of its own six fields does; `op` is its op code. -/
theorem decode_eq_decode_ofFields {w : CmdWord} {op : Byte} (h : w.extractLsb' 0 8 = op) :
    decode w = decode (CmdWord.ofFields op (w.extractLsb' 8 32) (w.extractLsb' 40 32) (w.extractLsb' 72 32)
      (w.extractLsb' 104 32) (w.extractLsb' 136 32)) := by
  subst h
  simp only [decode, op_ofFields, a_ofFields, b_ofFields, c_ofFields, d_ofFields, v_ofFields]
  rfl

end Sys2Proof
end

section
/-! INFO, GETDIRTY, MARK, CLRDIRTY, RESET and the reserved op codes (spec/41_displaymemory.md R101, R106 to R110): commands
that complete on every state. -/

namespace Sys2Proof.Machine

/-- Settles O20: INFO reads the elaboration parameters; the code is the one of the format (spec/30_encoding.md R62). -/
theorem infoReturnsTheConfiguration : Obligations.InfoReturnsTheConfiguration := by
  refine ⟨fun w h => (decode_eq_decode_ofFields h).trans (decode_ofFields 0x00 _ _ _ _ _), fun s =>
    ⟨u32 (formatCode s.params.format), rfl, fun hf => ?_, fun hf => ?_, fun hf => ?_⟩⟩
  case refine_1 | refine_2 | refine_3 => rw [hf]; rfl

theorem exec_getdirty_of_region_none {s : State} (h : s.dirty.region = none) :
    exec .getdirty s = .next (s.withRsp (some okResponse)) := by
  simp only [exec, execGetdirty, region_none h]
  rfl

theorem exec_getdirty_of_region_some {s : State} {r : Rect} (h : s.dirty.region = some r) :
    exec .getdirty s = .next (s.withRsp (some ⟨.ok, true, BitVec.ofInt 32 r.x0, BitVec.ofInt 32 r.y0,
      BitVec.ofInt 32 r.x1, BitVec.ofInt 32 r.y1⟩)) := by
  obtain ⟨hv, rfl⟩ := region_some h
  simp only [exec, execGetdirty, hv, coord, BitVec.ofInt_toInt]
  rfl

/-- Settles O23, by the register's two abstract values (`exec_getdirty_of_region_none`, `exec_getdirty_of_region_some`). -/
theorem getdirtyReportsTheRegion : Obligations.GetdirtyReportsTheRegion :=
  ⟨fun _ h => (decode_eq_decode_ofFields h).trans (decode_ofFields 0x07 _ _ _ _ _), fun _ =>
    ⟨exec_getdirty_of_region_none, fun _ _ _ _ => exec_getdirty_of_region_some⟩⟩

/-- Settles O33: MARK is the mark and the response, whatever the state. -/
theorem markMergesTheRectangle : Obligations.MarkMergesTheRectangle :=
  ⟨fun _ h => (decode_eq_decode_ofFields h).trans (decode_ofFields 0x05 _ _ _ _ _), fun _ _ _ _ _ => rfl⟩

/-- Settles O34: CLRDIRTY leaves the empty register, which GETDIRTY reports as none (`exec_getdirty_of_region_none`). -/
theorem clrdirtyEmptiesTheRegion : Obligations.ClrdirtyEmptiesTheRegion :=
  ⟨fun _ h => (decode_eq_decode_ofFields h).trans (decode_ofFields 0x06 _ _ _ _ _), fun _ =>
    ⟨_, rfl, rfl, region_empty, exec_getdirty_of_region_none region_empty⟩⟩

/-- Settles O14: the reset sequence zeroes VRAM and leaves the power-on register (`resetSequence_dirty`). -/
theorem resetCommandRestoresPowerOn : Obligations.ResetCommandRestoresPowerOn := by
  refine ⟨fun w h => (decode_eq_decode_ofFields h).trans (decode_ofFields 0x08 _ _ _ _ _), fun s hl => ?_⟩
  rw [State.powerOn_dirty, ← resetSequence_dirty hl]
  rfl

/-- Settles O38: a word with an op code of 9 or more decodes to that reserved op code (`decode_reserved`), and its meaning is the
error response. -/
theorem reservedOpAnswersIllegalOp : Obligations.ReservedOpAnswersIllegalOp := by
  intro s op a b c d v hop
  have hdecode : decode (CmdWord.ofFields op a b c d v) = .reserved op := by
    rw [decode_reserved (by rwa [op_ofFields]), op_ofFields]
  exact ⟨rfl, congrArg (exec · s) hdecode⟩

/-! ### The smallest box -/

/-- A rectangle that contains every pixel of an ordered one reaches at least as far on each side. -/
theorem Rect.bounds_of_contains {r box : Rect} (hx : r.x0 ≤ r.x1) (hy : r.y0 ≤ r.y1)
    (h : ∀ px py, r.contains px py → box.contains px py) :
    box.x0 ≤ r.x0 ∧ r.x1 ≤ box.x1 ∧ box.y0 ≤ r.y0 ∧ r.y1 ≤ box.y1 := by
  obtain ⟨hx0, -, hy0, -⟩ := h r.x0 r.y0 ⟨le_rfl, hx, le_rfl, hy⟩
  obtain ⟨-, hx1, -, hy1⟩ := h r.x1 r.y1 ⟨hx, le_rfl, hy, le_rfl⟩
  exact ⟨hx0, hx1, hy0, hy1⟩

/-- The union of two ordered rectangles lies in every rectangle that contains both. -/
theorem Rect.union_subset {r q box : Rect} (hrx : r.x0 ≤ r.x1) (hry : r.y0 ≤ r.y1) (hqx : q.x0 ≤ q.x1) (hqy : q.y0 ≤ q.y1)
    (hr : ∀ px py, r.contains px py → box.contains px py) (hq : ∀ px py, q.contains px py → box.contains px py)
    (px py : Int) (h : (r.union q).contains px py) : box.contains px py := by
  have br := Rect.bounds_of_contains hrx hry hr
  have bq := Rect.bounds_of_contains hqx hqy hq
  simp only [Rect.contains, Rect.union] at h ⊢
  omega

/-- Marking leaves no more than any rectangle that contains the old region and the clamped new one (R121). -/
theorem markDirty_smallest {p : Params} {d : DirtyReg} {x0 y0 x1 y1 : Int} {new box : Rect} (hl : Params.legal p)
    (hd : dirtyLegal p d) (hnew : (markDirty p d x0 y0 x1 y1).region = some new)
    (hold : ∀ r, d.region = some r → ∀ px py, r.contains px py → box.contains px py)
    (hclamp : ∀ px py, (clampRect p x0 y0 x1 y1).contains px py → box.contains px py)
    (px py : Int) (h : new.contains px py) : box.contains px py := by
  rw [region_markDirty hl hd, Option.some.injEq] at hnew
  subst hnew
  cases hr : d.region with
  | none => rw [hr] at h; exact hclamp px py h
  | some r =>
    rw [hr] at h
    obtain ⟨hvw, -, hvh, -⟩ := legal_viewport hl
    obtain ⟨-, hqx, -, -, hqy, -⟩ := clampRect_inside hvw hvh x0 y0 x1 y1
    obtain ⟨-, hrx, -, -, hry, -⟩ := dirtyLegal_region hd hr
    exact Rect.union_subset hrx hry hqx hqy (hold r hr) hclamp px py h

/-- Settles O32: the clamped rectangle is the same in both orders, the region is it or its union with the old one
(`region_markDirty`), which contains both (`markDirty_covers_old`, `markDirty_covers_clampRect`) and no more
(`markDirty_smallest`). -/
theorem markDirtyIsTheSmallestBox : Obligations.MarkDirtyIsTheSmallestBox := by
  intro p d x0 y0 x1 y1 hl hd
  obtain ⟨hvw, -, hvh, -⟩ := legal_viewport hl
  have hregion := region_markDirty hl hd x0 y0 x1 y1
  refine ⟨(clampRect p x0 y0 x1 y1).x0, (clampRect p x0 y0 x1 y1).y0, (clampRect p x0 y0 x1 y1).x1,
    (clampRect p x0 y0 x1 y1).y1, rfl, rfl, rfl, rfl, ?_, ?_, ?_, ?_, clampRect_inside hvw hvh x0 y0 x1 y1,
    fun hr => ?_, fun r hr => ?_, fun box new hnew => ⟨fun r hr px py h => ?_, fun px py h => ?_, fun hold hclamp =>
      markDirty_smallest hl hd hnew hold hclamp⟩⟩
  case refine_1 | refine_2 | refine_3 | refine_4 => simp only [clampRect, clamp]; omega
  case refine_5 => rw [hregion, hr]
  case refine_6 => rw [hregion, hr]; rfl
  case refine_7 =>
    obtain ⟨new', hnew', hsub⟩ := markDirty_covers_old hl hd hr x0 y0 x1 y1
    cases hnew.symm.trans hnew'
    exact hsub px py h
  case refine_8 =>
    obtain ⟨new', hnew', hsub⟩ := markDirty_covers_clampRect hl hd x0 y0 x1 y1
    cases hnew.symm.trans hnew'
    exact hsub px py h

end Sys2Proof.Machine
end

section
/-! Where a plane pixel lies and what it reads as, format by format (spec/20_memory.md R41, R42, spec/40_pixelplane.md R83), and
the commands that read it: LOCATE and GETPX (spec/41_displaymemory.md R102, R103). -/

namespace Sys2Proof.Machine

section

variable {p : Params} {m : Memory}

/-! ### The place of a pixel -/

theorem layout_packedNibble (hf : p.format = .packedNibble) (x y : Nat) :
    layout p x y = { byteOffset := y * ((p.pw + 1) / 2) + x / 2, subIndex := x % 2 } := by
  simp only [layout, hf, stride_packedNibble hf]

theorem layout_packedBit (hf : p.format = .packedBit) (x y : Nat) :
    layout p x y = { byteOffset := y * ((p.pw + 7) / 8) + x / 8, subIndex := x % 8 } := by
  simp only [layout, hf, stride_packedBit hf]

theorem layout_rgb24 (hf : p.format = .rgb24) (x y : Nat) :
    layout p x y = { byteOffset := y * (3 * p.pw) + 3 * x, subIndex := 0 } := by
  simp only [layout, hf, stride_rgb24 hf]

theorem toNat_lt_of_inPlane {x y : Int} (h : inPlane p x y) : x.toNat < p.pw ∧ y.toNat < p.ph := by
  obtain ⟨hx0, hx, hy0, hy⟩ := h
  exact ⟨by omega, by omega⟩

/-- The first byte of a plane pixel lies in VRAM, whatever the format. -/
theorem byteOffset_inside {x y : Int} (h : inPlane p x y) :
    (layout p x.toNat y.toNat).byteOffset < Params.vramSize p := by
  obtain ⟨hx, hy⟩ := toNat_lt_of_inPlane h
  refine pixelBytes_inside hx hy ?_
  cases hf : p.format <;> simp [pixelBytes, hf]

/-- The last byte of a plane pixel of an RGB24 plane lies in VRAM. -/
theorem byteOffset_inside_rgb24 (hf : p.format = .rgb24) {x y : Int} (h : inPlane p x y) :
    (layout p x.toNat y.toNat).byteOffset + 2 < Params.vramSize p := by
  obtain ⟨hx, hy⟩ := toNat_lt_of_inPlane h
  exact pixelBytes_inside hx hy (by simp [pixelBytes, hf])

/-! ### The value of a pixel -/

theorem extractField_packedNibble (sub : Nat) (byte : Byte) :
    extractField .packedNibble sub byte = ((byte >>> (4 * sub)) &&& 0xF#8).setWidth 32 := by
  rw [BitVec.setWidth_and]
  rfl

theorem extractField_packedBit (sub : Nat) (byte : Byte) :
    extractField .packedBit sub byte = ((byte >>> sub) &&& 0x1#8).setWidth 32 := by
  rw [BitVec.setWidth_and]
  rfl

/-- In a sub-byte format a plane pixel reads as its field of its byte. -/
theorem readPixel_subByte (hf : p.format ≠ .rgb24) {x y : Int} (h : inPlane p x y) :
    readPixel p m x y = .ok (extractField p.format (layout p x.toNat y.toNat).subIndex
      (Memory.read m (layout p x.toNat y.toNat).byteOffset)) := by
  have hread : readSubByte p m (layout p x.toNat y.toNat) = .ok (extractField p.format
      (layout p x.toNat y.toNat).subIndex (Memory.read m (layout p x.toNat y.toNat).byteOffset)) := by
    rw [readSubByte, readByte_inside (byteOffset_inside h), bind_ok]
  rw [readPixel, locate_inPlane h, bind_ok]
  split
  · exact hread
  · exact hread
  next hrgb => exact absurd hrgb hf

theorem readPixel_packedNibble (hf : p.format = .packedNibble) {x y : Int} (h : inPlane p x y) :
    readPixel p m x y = .ok (((Memory.read m (y.toNat * ((p.pw + 1) / 2) + x.toNat / 2) >>> (4 * (x.toNat % 2))) &&&
      0xF#8).setWidth 32) := by
  rw [readPixel_subByte (by simp [hf]) h, layout_packedNibble hf, hf, extractField_packedNibble]

theorem readPixel_packedBit (hf : p.format = .packedBit) {x y : Int} (h : inPlane p x y) :
    readPixel p m x y = .ok (((Memory.read m (y.toNat * ((p.pw + 7) / 8) + x.toNat / 8) >>> (x.toNat % 8)) &&&
      0x1#8).setWidth 32) := by
  rw [readPixel_subByte (by simp [hf]) h, layout_packedBit hf, hf, extractField_packedBit]

theorem readPixel_rgb24 (hf : p.format = .rgb24) {x y : Int} (h : inPlane p x y) :
    readPixel p m x y = .ok ((Memory.read m (y.toNat * (3 * p.pw) + 3 * x.toNat) ++
      Memory.read m (y.toNat * (3 * p.pw) + 3 * x.toNat + 1) ++
      Memory.read m (y.toNat * (3 * p.pw) + 3 * x.toNat + 2)).setWidth 32) := by
  simp only [readPixel, locate_inPlane h, bind_ok, hf]
  rw [memRead_three (byteOffset_inside_rgb24 hf h), bind_ok, layout_rgb24 hf]

end

/-- Between the viewport and the plane's edge every pixel reads as 0 (spec/10_state.md R30). -/
theorem StateInv.readPixel_outside_viewport {s : State} (hs : StateInv s) {x y : Int} (hp : inPlane s.params x y)
    (hv : ¬ inViewport s.params x y) : readPixel s.params s.vram x y = .ok 0 := by
  obtain ⟨hx, hy⟩ := toNat_lt_of_inPlane hp
  obtain ⟨hx0, -, hy0, -⟩ := hp
  have hzero := hs.outside y.toNat hy x.toNat hx (by omega)
  rwa [Int.toNat_of_nonneg hx0, Int.toNat_of_nonneg hy0] at hzero

/-! ### LOCATE and GETPX -/

theorem exec_locate_inPlane {s : State} {x y : Word} (h : inPlane s.params (coord x) (coord y)) :
    exec (.locate x y) s = .next (s.withRsp (some ⟨.ok, false,
      BitVec.ofNat 32 (layout s.params (coord x).toNat (coord y).toNat).byteOffset,
      BitVec.ofNat 32 (layout s.params (coord x).toNat (coord y).toNat).subIndex,
      BitVec.ofNat 32 (shift s.params.format (layout s.params (coord x).toNat (coord y).toNat).subIndex),
      mask s.params.format (layout s.params (coord x).toNat (coord y).toNat).subIndex⟩)) := by
  simp only [exec, execLocate, locate_inPlane h]
  rfl

theorem exec_locate_outside {s : State} {x y : Word} (h : ¬ inPlane s.params (coord x) (coord y)) :
    exec (.locate x y) s = .next (s.withRsp (some boundsResponse)) := by
  simp only [exec, execLocate, locate_outside h]
  rfl

theorem exec_getpx_of_readPixel {s : State} {x y value : Word}
    (h : readPixel s.params s.vram (coord x) (coord y) = .ok value) :
    exec (.getpx x y) s = .next (s.withRsp (some ⟨.ok, false, value, 0, 0, 0⟩)) := by
  simp only [exec, execGetpx, h]
  rfl

theorem exec_getpx_outside {s : State} {x y : Word} (h : ¬ inPlane s.params (coord x) (coord y)) :
    exec (.getpx x y) s = .next (s.withRsp (some boundsResponse)) := by
  simp only [exec, execGetpx, readPixel_outside h]
  rfl

/-- Settles O21: the place of a plane pixel is its layout (`exec_locate_inPlane`), written out for each format. -/
theorem locateReturnsThePlace : Obligations.LocateReturnsThePlace := by
  refine ⟨fun w h => (decode_eq_decode_ofFields h).trans (decode_ofFields 0x01 _ _ _ _ _), fun s x y _ =>
    ⟨fun hp => ⟨fun hf => ?_, fun hf => ?_, fun hf => ?_⟩, exec_locate_outside⟩⟩
  case refine_1 => rw [exec_locate_inPlane hp, layout_packedNibble hf, hf]; rfl
  case refine_2 => rw [exec_locate_inPlane hp, layout_packedBit hf, hf]; rfl
  case refine_3 => rw [exec_locate_inPlane hp, layout_rgb24 hf, hf]; rfl

/-- Settles O22: GETPX answers what the pixel reads as (`exec_getpx_of_readPixel`), which is its field or its three bytes by
format, and 0 between the viewport and the plane's edge (`StateInv.readPixel_outside_viewport`). -/
theorem getpxReturnsThePixel : Obligations.GetpxReturnsThePixel :=
  ⟨fun _ h => (decode_eq_decode_ofFields h).trans (decode_ofFields 0x02 _ _ _ _ _), fun _ _ _ _ =>
    ⟨fun hp => ⟨fun hf => exec_getpx_of_readPixel (readPixel_packedNibble hf hp),
        fun hf => exec_getpx_of_readPixel (readPixel_packedBit hf hp),
        fun hf => exec_getpx_of_readPixel (readPixel_rgb24 hf hp)⟩,
      exec_getpx_outside,
      fun hs hp hv => exec_getpx_of_readPixel (hs.readPixel_outside_viewport hp hv)⟩⟩

end Sys2Proof.Machine
end

section
/-! What writing a plane pixel leaves in its bytes, format by format (spec/40_pixelplane.md R84), and the commands that draw:
SETPX and FILL (spec/41_displaymemory.md R104, R105). -/

namespace Sys2Proof.Machine

/-! ### Writing a pixel -/

theorem setWidth_shiftLeft_byte (w : Word) (n : Nat) : (w <<< n).setWidth 8 = w.setWidth 8 <<< n := by
  apply BitVec.eq_of_getLsbD_eq
  intro i hi
  simp [hi]

theorem mergeField_packedNibble (sub : Nat) (old : Byte) (v : Word) :
    mergeField .packedNibble sub old (trunc .packedNibble v) =
      (old &&& ~~~(0xF#8 <<< (4 * sub))) ||| ((v &&& 0xF#32).setWidth 8 <<< (4 * sub)) := by
  rw [mergeField, mask, setWidth_shiftLeft_byte, setWidth_shiftLeft_byte]
  rfl

theorem mergeField_packedBit (sub : Nat) (old : Byte) (v : Word) :
    mergeField .packedBit sub old (trunc .packedBit v) =
      (old &&& ~~~(0x1#8 <<< sub)) ||| ((v &&& 0x1#32).setWidth 8 <<< sub) := by
  rw [mergeField, mask, setWidth_shiftLeft_byte, setWidth_shiftLeft_byte]
  rfl

/-- Truncation to 24 bits drops no bit of the three bytes that MemWrite takes the value apart into. -/
theorem extractLsb'_trunc_rgb24 {c : Nat} (hc : c ≤ 16) (v : Word) :
    ((trunc .rgb24 v).setWidth 24).extractLsb' c 8 = v.extractLsb' c 8 := by
  apply BitVec.eq_of_getLsbD_eq
  intro i hi
  have h24 : c + i < 24 := by omega
  simp [hi, trunc_getLsbD, bitsPerPixel, h24]

section

variable {p : Params} {m : Memory} {x y : Int}

/-- In a sub-byte format a write of a plane pixel merges its field into its byte (spec/20_memory.md R47). -/
theorem writePixel_subByte (hf : p.format ≠ .rgb24) (h : inPlane p x y) (v : Word) :
    writePixel p m x y v = .ok (Memory.write m (layout p x.toNat y.toNat).byteOffset
      (mergeField p.format (layout p x.toNat y.toNat).subIndex
        (Memory.read m (layout p x.toNat y.toNat).byteOffset) (trunc p.format v))) := by
  have hwrite := byteOffset_inside h
  rw [writePixel, locate_inPlane h, bind_ok]
  cases hp : p.format with
  | packedNibble | packedBit =>
    simp only [writeSubByte, readByte_inside hwrite, bind_ok, writeByte_inside hwrite, hp]
  | rgb24 => exact absurd hp hf

theorem writePixel_rgb24 (hf : p.format = .rgb24) (h : inPlane p x y) (v : Word) :
    writePixel p m x y v = .ok (Memory.write (Memory.write (Memory.write m
      (layout p x.toNat y.toNat).byteOffset (v.extractLsb' 16 8))
      ((layout p x.toNat y.toNat).byteOffset + 1) (v.extractLsb' 8 8))
      ((layout p x.toNat y.toNat).byteOffset + 2) (v.extractLsb' 0 8)) := by
  simp only [writePixel, locate_inPlane h, bind_ok, hf]
  rw [memWrite_three (byteOffset_inside_rgb24 hf h), extractLsb'_trunc_rgb24 (by decide), extractLsb'_trunc_rgb24 (by decide),
    extractLsb'_trunc_rgb24 (by decide)]

section

variable {m' : Memory} {v : Word} (hm : Memory.wf m) (h : inPlane p x y) (hw : writePixel p m x y v = .ok m')
include hm h hw

theorem read_of_writePixel_subByte (hf : p.format ≠ .rgb24) (a : Nat) :
    Memory.read m' a =
      if a = (layout p x.toNat y.toNat).byteOffset then
        mergeField p.format (layout p x.toNat y.toNat).subIndex (Memory.read m a) (trunc p.format v)
      else Memory.read m a := by
  rw [writePixel_subByte hf h, Except.ok.injEq] at hw
  subst hw
  rw [Memory.read_write hm]
  split
  next ha => rw [ha]
  · rfl

theorem read_of_writePixel_packedNibble (hf : p.format = .packedNibble) (a : Nat) :
    Memory.read m' a =
      if a = y.toNat * ((p.pw + 1) / 2) + x.toNat / 2 then
        (Memory.read m a &&& ~~~(0xF#8 <<< (4 * (x.toNat % 2)))) |||
          ((v &&& 0xF#32).setWidth 8 <<< (4 * (x.toNat % 2)))
      else Memory.read m a := by
  rw [read_of_writePixel_subByte hm h hw (by simp [hf]), layout_packedNibble hf, hf, mergeField_packedNibble]

theorem read_of_writePixel_packedBit (hf : p.format = .packedBit) (a : Nat) :
    Memory.read m' a =
      if a = y.toNat * ((p.pw + 7) / 8) + x.toNat / 8 then
        (Memory.read m a &&& ~~~(0x1#8 <<< (x.toNat % 8))) ||| ((v &&& 0x1#32).setWidth 8 <<< (x.toNat % 8))
      else Memory.read m a := by
  rw [read_of_writePixel_subByte hm h hw (by simp [hf]), layout_packedBit hf, hf, mergeField_packedBit]

theorem read_of_writePixel_rgb24 (hf : p.format = .rgb24) (a : Nat) :
    Memory.read m' a =
      if a = y.toNat * (3 * p.pw) + 3 * x.toNat then v.extractLsb' 16 8
      else if a = y.toNat * (3 * p.pw) + 3 * x.toNat + 1 then v.extractLsb' 8 8
      else if a = y.toNat * (3 * p.pw) + 3 * x.toNat + 2 then v.extractLsb' 0 8
      else Memory.read m a := by
  rw [writePixel_rgb24 hf h, layout_rgb24 hf, Except.ok.injEq] at hw
  subst hw
  dsimp only
  generalize y.toNat * (3 * p.pw) + 3 * x.toNat = base
  have hm1 := Memory.wf_write hm base (v.extractLsb' 16 8)
  have hm2 := Memory.wf_write hm1 (base + 1) (v.extractLsb' 8 8)
  rw [Memory.read_write hm2, Memory.read_write hm1, Memory.read_write hm]
  by_cases h0 : a = base
  · simp [h0]
  · by_cases h1 : a = base + 1
    · simp [h1]
    · simp [h0, h1]

end

/-- A fill of one pixel is a write of that pixel, also outside the plane, where both raise BoundsError. -/
theorem fillRegion_single (p : Params) (m : Memory) (x y : Int) (v : Word) :
    fillRegion p m x y x y v = writePixel p m x y v := by
  by_cases h : inPlane p x y
  · have hone : ∀ z : Int, (z - z + 1).toNat = 1 := fun z => by simp
    rw [fillRegion, if_neg (by simp [emptyRect]), locate_inPlane h, bind_ok, bind_ok, hone, hone]
    simp [fillRows, fillRow]
  · rw [writePixel_outside h, fillRegion, if_neg (by simp [emptyRect]), locate_outside h, bind_error]

/-- A fill inside the plane writes no bit beyond the last pixel of a row (R30). -/
theorem Filled.rowBit_padding {m' : Memory} {x0 x1 y0 y1 : Nat} {v : Word} (f : Filled p m m' x0 x1 y0 y1 v)
    (hx : x1 ≤ p.pw) {k : Nat} (hpad : p.pw * bitsPerPixel p.format ≤ k) (hk : k < 8 * Params.stride p) (y : Nat) :
    rowBit p m' y k = rowBit p m y k := by
  have hbeyond : p.pw ≤ k / bitsPerPixel p.format := (Nat.le_div_iff_mul_le (bitsPerPixel_pos p.format)).mpr hpad
  rw [f.bits y k hk, if_neg (by omega)]

end

/-! ### SETPX and FILL -/

theorem exec_setpx_outside {s : State} {x y v : Word} (h : ¬ inViewport s.params (coord x) (coord y)) :
    exec (.setpx x y v) s = .next (s.withRsp (some boundsResponse)) := by
  simp only [exec, execSetpx, if_neg h]
  rfl

theorem exec_setpx_of_writePixel {s : State} {x y v : Word} {m : Memory} (h : inViewport s.params (coord x) (coord y))
    (hw : writePixel s.params s.vram (coord x) (coord y) v = .ok m) :
    exec (.setpx x y v) s = .next (((s.withVram m).withDirty
      (markDirty s.params s.dirty (coord x) (coord y) (coord x) (coord y))).withRsp (some okResponse)) := by
  simp only [exec, execSetpx, if_pos h, hw]
  rfl

theorem exec_fill_empty {s : State} {x0 y0 x1 y1 v : Word} (h : emptyRect (coord x0) (coord y0) (coord x1) (coord y1)) :
    exec (.fill x0 y0 x1 y1 v) s = .next (s.withRsp (some okResponse)) := by
  simp only [exec, execFill, if_pos h]
  rfl

theorem exec_fill_outside {s : State} {x0 y0 x1 y1 v : Word} (hx : coord x0 ≤ coord x1) (hy : coord y0 ≤ coord y1)
    (h : ¬ inViewport s.params (coord x0) (coord y0) ∨ ¬ inViewport s.params (coord x1) (coord y1)) :
    exec (.fill x0 y0 x1 y1 v) s = .next (s.withRsp (some boundsResponse)) := by
  have hne : ¬ emptyRect (coord x0) (coord y0) (coord x1) (coord y1) := not_or.mpr ⟨not_lt.mpr hx, not_lt.mpr hy⟩
  simp only [exec, execFill, if_neg hne, if_neg (not_and_or.mpr h)]
  rfl

theorem exec_fill_single (s : State) (x y v : Word) : exec (.fill x y x y v) s = exec (.setpx x y v) s := by
  have hne : ¬ emptyRect (coord x) (coord y) (coord x) (coord y) := not_or.mpr ⟨lt_irrefl _, lt_irrefl _⟩
  simp only [exec, execFill, execSetpx, if_neg hne, and_self, fillRegion_single]

/-- Settles O24: SETPX performs the write of its pixel (`exec_setpx_of_writePixel`), which on a plane pixel completes
(`writePixel_filled`) and leaves each byte as R84 says for the format. -/
theorem setpxWritesThePixelField : Obligations.SetpxWritesThePixelField := by
  refine ⟨fun w h => (decode_eq_decode_ofFields h).trans (decode_ofFields 0x03 _ _ _ _ _), fun s x y v hl hm =>
    ⟨exec_setpx_outside, fun hv => ?_⟩⟩
  have hp := inPlane_of_inViewport hl hv
  obtain ⟨m, hw, -⟩ := writePixel_filled v hp hm
  exact ⟨m, exec_setpx_of_writePixel hv hw, read_of_writePixel_packedNibble hm hp hw,
    read_of_writePixel_packedBit hm hp hw, read_of_writePixel_rgb24 hm hp hw⟩

/-- Settles O25: inside the viewport FILL fills its rectangle whole (`exec_fill_inside`), which fixes what every pixel reads as
(`Filled.readPixel`), the padding (`Filled.rowBit_padding`) and the other bytes (`Filled.bytes`); one pixel's fill is its write
(`exec_fill_single`). -/
theorem fillWritesExactlyTheRectangle : Obligations.FillWritesExactlyTheRectangle := by
  refine ⟨fun w h => (decode_eq_decode_ofFields h).trans (decode_ofFields 0x04 _ _ _ _ _),
    fun s x0 y0 x1 y1 v hl hm => ⟨exec_fill_empty, exec_fill_outside, fun hx hy h0 h1 => ?_, exec_fill_single s x0 y0 v⟩⟩
  obtain ⟨m, hexec, filled⟩ := exec_fill_inside (value := v) hl hm hx hy h0 h1
  obtain ⟨hx0, -, hy0, -⟩ := h0
  obtain ⟨-, hx1, -, -⟩ := inPlane_of_inViewport hl h1
  refine ⟨m, hexec, fun px py hp => ⟨fun hin => ?_, fun hout => ?_⟩,
    fun y k hpad hk => filled.rowBit_padding (by omega) hpad hk y, fun a ha => filled.bytes a fun px py h1 h2 h3 h4 =>
      ha px py (by omega) (by omega) (by omega) (by omega)⟩
  · rw [filled.readPixel hp, if_pos (by omega), trunc]
  · have ⟨hpx, _, hpy, _⟩ := hp
    rw [filled.readPixel hp, if_neg (by omega)]

end Sys2Proof.Machine
end

section
/-! Which commands raise BoundsError (spec/60_exceptions.md R130): each command of the table outside its bound, and the response
of every command inside it. -/

namespace Sys2Proof.Machine

/-- A command that R130's table names out of bounds leaves nothing but the error response, on any state. -/
theorem exec_of_raisesBounds {i : Instr} {s : State} (h : raisesBounds s.params i) :
    exec i s = .next (s.withRsp (some boundsResponse)) := by
  cases i with
  | locate => exact exec_locate_outside h
  | getpx => exact exec_getpx_outside h
  | setpx => exact exec_setpx_outside h
  | fill =>
    obtain ⟨⟨hx, hy⟩, hout⟩ := h
    exact exec_fill_outside hx hy hout
  | info | mark | clrdirty | getdirty | reset | reserved => exact h.elim

/-- A FILL that R130's table does not name is empty or has both corners in the viewport. -/
theorem not_raisesBounds_fill {p : Params} {x0 y0 x1 y1 v : Word} (h : ¬ raisesBounds p (.fill x0 y0 x1 y1 v)) :
    emptyRect (coord x0) (coord y0) (coord x1) (coord y1) ∨
      (coord x0 ≤ coord x1 ∧ coord y0 ≤ coord y1 ∧
        inViewport p (coord x0) (coord y0) ∧ inViewport p (coord x1) (coord y1)) := by
  simp only [raisesBounds] at h
  omega

/-- A command that R130's table does not name out of bounds completes with OK, or with ILLEGAL_OP for a reserved op code. -/
theorem exec_of_not_raisesBounds {i : Instr} {s : State} (hl : Params.legal s.params) (hm : Memory.wf s.vram)
    (h : ¬ raisesBounds s.params i) :
    ∃ t r, exec i s = .next t ∧ t.rsp = some r ∧ r.status ≠ .boundsError := by
  cases i with
  | locate => exact ⟨_, _, exec_locate_inPlane (not_not.mp h), rfl, nofun⟩
  | getpx =>
    obtain ⟨value, hread, -⟩ := readPixel_inPlane (m := s.vram) (not_not.mp h)
    exact ⟨_, _, exec_getpx_of_readPixel hread, rfl, nofun⟩
  | setpx x y value =>
    obtain ⟨m, hexec, -⟩ := exec_setpx_inside (value := value) hl hm (not_not.mp h)
    exact ⟨_, _, hexec, rfl, nofun⟩
  | fill x0 y0 x1 y1 value =>
    obtain hempty | ⟨hx, hy, h0, h1⟩ := not_raisesBounds_fill h
    · exact ⟨_, _, exec_fill_empty hempty, rfl, nofun⟩
    · obtain ⟨m, hexec, -⟩ := exec_fill_inside (value := value) hl hm hx hy h0 h1
      exact ⟨_, _, hexec, rfl, nofun⟩
  | getdirty =>
    cases hr : s.dirty.region with
    | none => exact ⟨_, _, exec_getdirty_of_region_none hr, rfl, nofun⟩
    | some r => exact ⟨_, _, exec_getdirty_of_region_some hr, rfl, nofun⟩
  | info | mark | clrdirty | reset | reserved => exact ⟨_, _, rfl, rfl, nofun⟩

/-- Settles O39: the commands that R130's table names (`exec_of_raisesBounds`) and all others (`exec_of_not_raisesBounds`). -/
theorem boundsErrorExactlyOutOfBounds : Obligations.BoundsErrorExactlyOutOfBounds :=
  fun _ _ hl hm => ⟨exec_of_raisesBounds, exec_of_not_raisesBounds hl hm⟩

end Sys2Proof.Machine
end

section
/-! The power-on state, the reset sequence and the reset input (spec/70_reset_and_hazards.md R150 to R152, R161). -/

namespace Sys2Proof.Machine

/-! ### The reset sequence forgets the state before it -/

/-- The register that the reset sequence leaves depends on the instance only, legal or not. -/
theorem resetSequence_dirty_congr {s s' : State} (h : s.params = s'.params) :
    (resetSequence s).dirty = (resetSequence s').dirty :=
  congrArg (fun p : Params => markDirty p DirtyReg.empty 0 0 (p.vw - 1) (p.vh - 1)) h

/-- The reset sequence changes nothing that it has left itself, whatever response is given in between. -/
theorem resetSequence_again (s : State) (r : Response) :
    resetSequence ((resetSequence s).respond r) = (resetSequence s).respond r := rfl

theorem exec_reset (s : State) : exec .reset s = .next ((resetSequence s).respond Response.okPlain) := rfl

/-- RESET leaves what the reset sequence leaves, which the second one finds done; no legality of the instance is needed. -/
theorem exec_reset_again {s t : State} (h : exec .reset s = .next t) : exec .reset t = .next t := by
  rw [exec_reset, Host.Outcome.next.injEq] at h
  subst h
  rw [exec_reset, resetSequence_again]
  rfl

/-- Settles O15: VRAM is emptied, the register depends on the instance only (`resetSequence_dirty_congr`), and a second RESET
finds the work of the first done (`exec_reset_again`). -/
theorem resetIsIdempotent : Obligations.ResetIsIdempotent :=
  ⟨fun s s' h => ⟨(resetSequence_vram s).trans (resetSequence_vram s').symm, resetSequence_dirty_congr h⟩,
    fun _ _ => exec_reset_again, fun _ => Memory.read_nil⟩

/-! ### The reset input and the power-on state -/

/-- An asserted `rst` resets the block, whatever response waits and whatever is offered (R161). -/
theorem step_resets {s : State} (hl : Params.legal s.params) (hp : s.pinsNow.rst = true) :
    step s = .next s.tick.portReset := by
  unfold step State.portEvent
  rw [if_pos hl, if_pos hp]

/-- The corners of the power-on register, read back as coordinates. -/
theorem coord_fullViewport {p : Params} (hl : Params.legal p) :
    coord (DirtyReg.fullViewport p).x0 = 0 ∧ coord (DirtyReg.fullViewport p).y0 = 0 ∧
    coord (DirtyReg.fullViewport p).x1 = (p.vw : Int) - 1 ∧ coord (DirtyReg.fullViewport p).y1 = (p.vh : Int) - 1 := by
  obtain ⟨-, -, hvw, hvwpw, hvh, hvhph, hpw, hph, -⟩ := hl
  exact ⟨rfl, rfl, coord_ofNat_pred hvw (by omega), coord_ofNat_pred hvh (by omega)⟩

/-- Settles O12: the power-on register's corners are the viewport's (`coord_fullViewport`), the reset sequence leaves that
register (`resetSequence_dirty`), and a step with `rst` asserted is the reset sequence with no response left (`step_resets`). -/
theorem powerOnState : Obligations.PowerOnState := by
  intro p hl
  obtain ⟨hx0, hy0, hx1, hy1⟩ := coord_fullViewport hl
  refine ⟨Memory.read_nil, rfl, hx0, hy0, hx1, hy1, rfl, rfl, rfl, ?_⟩
  rintro s rfl
  exact ⟨rfl, resetSequence_dirty hl, fun hrst => ⟨s.tick.portReset, step_resets hl hrst, rfl,
    resetSequence_dirty (s := s.tick) hl, rfl, rfl, rfl⟩⟩

end Sys2Proof.Machine
end

section
/-! The encoder and the decoder against each other, and the fields of a command word (spec/30_encoding.md R60, R65 to R68). -/

namespace Sys2Proof

/-! ### Decoding -/

/-- A word with a reserved op code decodes to it, whatever its other fields (R67). -/
theorem decode_ofFields_of_reserved {op : Byte} (h : 9 ≤ op.toNat) (a b c d v : Word) :
    decode (CmdWord.ofFields op a b c d v) = .reserved op := by
  rw [decode_reserved (by rwa [op_ofFields]), op_ofFields]

/-- Settles O1: for each op code, decoding by fields (`decode_ofFields`, `decode_ofFields_of_reserved`). -/
theorem cmdFieldsReachTheCommand : Obligations.CmdFieldsReachTheCommand := by
  intro op a b c d v
  refine ⟨?_, ?_, ?_, ?_, ?_, ?_, ?_, ?_, ?_, fun h => decode_ofFields_of_reserved h a b c d v⟩
  all_goals
    rintro rfl
    exact decode_ofFields _ a b c d v

/-- Every word decodes to a well-formed command (R67, R68). -/
theorem wellFormed_decode (w : CmdWord) : (decode w).wellFormed = true := by
  unfold decode
  split
  case h_10 n hop => exact decide_eq_true (by omega)
  all_goals rfl

/-- The decoded command has the word's op code (R65). -/
theorem opcode_decode (w : CmdWord) : (decode w).opcode = CmdWord.op w := by
  unfold decode
  split
  case h_10 => rfl
  all_goals
    next hop => exact (BitVec.eq_of_toNat_eq hop).symm

/-! ### Encoding and decoding -/

/-- The encoded word carries the command's op code (R65). -/
theorem op_encode (i : Instr) : CmdWord.op (encode i) = i.opcode := by
  cases i with
  | info | locate | getpx | setpx | fill | mark | clrdirty | getdirty | reset | reserved => exact op_ofFields ..

theorem decode_encode {i : Instr} (h : i.wellFormed = true) : decode (encode i) = i := by
  cases i with
  | reserved op => exact decode_ofFields_of_reserved (of_decide_eq_true h) 0 0 0 0 0
  | info | locate | getpx | setpx | fill | mark | clrdirty | getdirty | reset => exact decode_ofFields ..

/-- Settles O2, by the command's constructors (`decode_encode`). -/
theorem decodeInvertsEncode : Obligations.DecodeInvertsEncode :=
  fun _ => decode_encode

/-- Settles O3: the decoded command is well formed (`wellFormed_decode`) and keeps the op code (`opcode_decode`), and encoding
does too (`op_encode`). -/
theorem everyWordIsACommand : Obligations.EveryWordIsACommand :=
  fun w => ⟨wellFormed_decode w, (op_encode (decode w)).trans (opcode_decode w), decode_encode (wellFormed_decode w)⟩

end Sys2Proof
end

section
/-! The fields of a response word (spec/30_encoding.md R63, R64), the constants of the formats (spec/00_scope.md R5,
spec/30_encoding.md R62) and the lines of assembly that the spec prints. -/

namespace Sys2Proof.Machine

/-- STATUS is the low two bits of a response word (R63). -/
theorem Response.extractLsb'_word_status (r : Response) : r.word.extractLsb' 0 2 = Status.code r.status := by
  apply BitVec.eq_of_getLsbD_eq
  intro k hk
  simp [Response.getLsbD_word, hk]

/-- FLAG is bit 8 of a response word (R63). -/
theorem Response.getLsbD_word_flag (r : Response) : r.word.getLsbD 8 = r.flag := by
  rw [Response.getLsbD_word]
  simp

/-- Settles O6: STATUS and FLAG (`Response.extractLsb'_word_status`, `Response.getLsbD_word_flag`), and bit by bit every other
field and every gap between two fields (`Response.getLsbD_word`). -/
theorem responseWordFields : Obligations.ResponseWordFields := by
  intro r
  refine ⟨fun h => ?_, fun h => ?_, fun h => ?_, ?_, r.getLsbD_word_flag, ?_, ?_, ?_, ?_, ?_⟩
  case refine_1 | refine_2 | refine_3 => rw [r.extractLsb'_word_status, h]; rfl
  all_goals
    apply BitVec.eq_of_getLsbD_eq
    intro k hk
    rw [BitVec.getLsbD_extractLsb', Response.getLsbD_word]
    simp (disch := omega) only [if_pos, if_neg, if_true, hk, decide_true, Bool.true_and, Nat.sub_sub, Nat.reduceAdd,
      Nat.add_sub_cancel_left, BitVec.getLsbD_zero]

theorem formatOfCode_formatCode (f : PixelFormat) : formatOfCode (formatCode f) = some f := by
  cases f <;> rfl

theorem formatOfCode_of_le {c : Nat} (h : 3 ≤ c) : formatOfCode c = none := by
  obtain ⟨n, rfl⟩ := Nat.exists_eq_add_of_le' h
  rfl

/-- Settles O8: the tables of the three formats (`toNat_fieldMask`, `formatOfCode_formatCode`), and no format beyond them
(`formatOfCode_of_le`). -/
theorem formatConstants : Obligations.FormatConstants :=
  ⟨rfl, rfl, rfl, toNat_fieldMask, formatOfCode_formatCode, rfl, rfl, rfl, fun _ => formatOfCode_of_le⟩

/-- Settles O47: the assembler run on the five lines. -/
theorem printedLinesAssemble : Obligations.PrintedLinesAssemble :=
  ⟨rfl, rfl, rfl, rfl, rfl⟩

end Sys2Proof.Machine
end

section
/-! Which response a command gives and what it leaves, from every state, legal or not (spec/30_encoding.md R63,
spec/60_exceptions.md R137, spec/10_state.md R22, R23). -/

namespace Sys2Proof.Machine

/-! ### The response of a performed command -/

/-- The responses OK a command can give, by the result fields that R101 to R109 define for it. -/
inductive OkAnswer : Instr → Response → Prop where
  | plain (i : Instr) : OkAnswer i Response.okPlain
  | info (r0 r1 r2 r3 : Word) : OkAnswer .info (Response.okWith false r0 r1 r2 r3)
  | locate (x y r0 r1 r2 r3 : Word) : OkAnswer (.locate x y) (Response.okWith false r0 r1 r2 r3)
  | getpx (x y r0 : Word) : OkAnswer (.getpx x y) (Response.okWith false r0 0 0 0)
  | getdirty (flag : Bool) (r0 r1 r2 r3 : Word) : OkAnswer .getdirty (Response.okWith flag r0 r1 r2 r3)

theorem OkAnswer.status_eq {i : Instr} {r : Response} (h : OkAnswer i r) : r.status = .ok := by
  cases h <;> rfl

theorem OkAnswer.flag_eq {i : Instr} {r : Response} (h : OkAnswer i r) (hi : i ≠ .getdirty) : r.flag = false := by
  cases h with
  | getdirty => exact absurd rfl hi
  | plain | info | locate | getpx => rfl

theorem OkAnswer.getpx_results {x y : Word} {r : Response} (h : OkAnswer (.getpx x y) r) :
    r.r1 = 0 ∧ r.r2 = 0 ∧ r.r3 = 0 := by
  cases h <;> exact ⟨rfl, rfl, rfl⟩

theorem OkAnswer.results_zero {i : Instr} {r : Response} (h : OkAnswer i r) (hg : ∀ x y, i ≠ .getpx x y)
    (hl : ∀ x y, i ≠ .locate x y) (hi : i ≠ .info) (hd : i ≠ .getdirty) :
    r.r0 = 0 ∧ r.r1 = 0 ∧ r.r2 = 0 ∧ r.r3 = 0 := by
  cases h with
  | plain => exact ⟨rfl, rfl, rfl, rfl⟩
  | info => exact absurd rfl hi
  | locate x y => exact absurd rfl (hl x y)
  | getpx x y => exact absurd rfl (hg x y)
  | getdirty => exact absurd rfl hd

/-- What SETPX and FILL draw is answered by OK without results. -/
theorem rsp_of_drawn {s t : State} {made : Except Abort Memory} {x0 y0 x1 y1 : Int}
    (h : drawn s made x0 y0 x1 y1 = .ok t) : t.rsp = some Response.okPlain := by
  obtain ⟨m, -, h⟩ := bind_ok_cases h
  cases h
  rfl

/-- A command that goes on raised an error, or made its state with one of its responses OK. -/
theorem exec_next_answer {i : Instr} {s t : State} (h : exec i s = .next t) :
    (∃ st, t = s.raise st) ∨ ∃ r, t.rsp = some r ∧ OkAnswer i r := by
  cases i with
  | info => cases h; exact .inr ⟨_, rfl, .info ..⟩
  | locate x y =>
    obtain h | ⟨-, rfl⟩ := complete_next h
    · obtain ⟨l, -, h⟩ := bind_ok_cases h
      cases h
      exact .inr ⟨_, rfl, .locate ..⟩
    · exact .inl ⟨_, rfl⟩
  | getpx x y =>
    obtain h | ⟨-, rfl⟩ := complete_next h
    · obtain ⟨value, -, h⟩ := bind_ok_cases h
      cases h
      exact .inr ⟨_, rfl, .getpx ..⟩
    · exact .inl ⟨_, rfl⟩
  | setpx x y value =>
    obtain h | ⟨-, rfl⟩ := complete_next h
    · split at h
      · exact .inr ⟨_, rsp_of_drawn h, .plain _⟩
      · cases h
    · exact .inl ⟨_, rfl⟩
  | fill x0 y0 x1 y1 value =>
    obtain h | ⟨-, rfl⟩ := complete_next h
    · split at h
      · cases h; exact .inr ⟨_, rfl, .plain _⟩
      · split at h
        · exact .inr ⟨_, rsp_of_drawn h, .plain _⟩
        · cases h
    · exact .inl ⟨_, rfl⟩
  | getdirty =>
    cases h
    refine .inr ⟨_, rfl, ?_⟩
    split <;> exact .getdirty ..
  | reserved op => cases h; exact .inl ⟨_, rfl⟩
  | mark | clrdirty | reset => cases h; exact .inr ⟨_, rfl, .plain _⟩

/-- Settles O7, by the two ways a command goes on (`exec_next_answer`): an error's results are all 0, and a response OK sets
only the fields its command defines. -/
theorem undefinedResultFieldsAreZero : Obligations.UndefinedResultFieldsAreZero := by
  intro i s t h
  obtain ⟨st, rfl⟩ | ⟨r, hr, ans⟩ := exec_next_answer h
  · exact ⟨Response.error st, rfl, fun _ => ⟨rfl, rfl, rfl, rfl, rfl⟩, fun _ => rfl, fun _ _ _ => ⟨rfl, rfl, rfl⟩,
      fun _ _ _ _ => ⟨rfl, rfl, rfl, rfl⟩⟩
  · refine ⟨r, hr, fun hne => absurd ans.status_eq hne, ans.flag_eq, ?_, ans.results_zero⟩
    rintro x y rfl
    exact ans.getpx_results

/-- Settles O40: a response with another status than OK is an error's (`exec_next_answer`), and an error is raised on the state
that the command began in. -/
theorem errorsChangeNothing : Obligations.ErrorsChangeNothing := by
  intro i s t r h hr hne
  obtain ⟨st, rfl⟩ | ⟨r', hr', ans⟩ := exec_next_answer h
  · rw [State.raise_rsp, Option.some.injEq] at hr
    subst hr
    rfl
  · rw [hr', Option.some.injEq] at hr
    subst hr
    exact absurd ans.status_eq hne

/-! ### What a performed command leaves -/

/-- Only SETPX, FILL and RESET write VRAM (R22). -/
theorem vram_of_not_writesVram {i : Instr} {s t : State} (hi : writesVram i = false) (h : exec i s = .next t) :
    t.vram = s.vram := by
  cases i with
  | info | locate | getpx | getdirty | reserved => rw [exec_eq_withRsp_of_changesNoState rfl h, State.withRsp_vram]
  | mark | clrdirty => cases h; rfl
  | setpx | fill | reset => cases hi

/-- Settles O41: the constants and the host's inputs stay (`exec_keeps`), VRAM under all but its writers
(`vram_of_not_writesVram`), and everything but the response under the reads (`exec_eq_withRsp_of_changesNoState`). -/
theorem onlyTheListedCommandsWrite : Obligations.OnlyTheListedCommandsWrite := by
  intro i s t h
  obtain ⟨hparams, hoffered, hpins, -⟩ := exec_keeps h
  exact ⟨hparams, hoffered, hpins, fun hi => vram_of_not_writesVram hi h,
    fun hi => exec_eq_withRsp_of_changesNoState hi h⟩

end Sys2Proof.Machine
end

section
/-! Places and accesses of VRAM: where the bytes of a pixel lie (spec/20_memory.md R45), and multi-byte accesses of any length
(spec/00_scope.md R12). -/

namespace Sys2Proof.Machine

/-! ### The place of a pixel -/

/-- A sub-byte field starts at a multiple of its width and ends inside its byte (R42). -/
theorem subByte_field {p : Params} (hf : p.format ≠ .rgb24) (x y : Nat) :
    shift p.format (layout p x y).subIndex + bitsPerPixel p.format ≤ 8 ∧
      bitsPerPixel p.format ∣ shift p.format (layout p x y).subIndex := by
  cases hp : p.format with
  | packedNibble =>
    rw [layout_packedNibble hp]
    simp only [shift, bitsPerPixel]
    omega
  | packedBit =>
    rw [layout_packedBit hp]
    simp only [shift, bitsPerPixel]
    omega
  | rgb24 => exact absurd hp hf

/-- Settles O30: the place of a plane pixel is its layout (`locate_inPlane`), its bytes lie in its row (`pixelBytes_in_row`) and
in VRAM (`pixelBytes_inside`), and its field in one byte (`subByte_field`). -/
theorem accessesStayInTheirRow : Obligations.AccessesStayInTheirRow := by
  intro p x y hx hy
  refine ⟨locate_inPlane ⟨by omega, by omega, by omega, by omega⟩, fun a ha => ?_, fun hf => subByte_field hf x y⟩
  obtain ⟨q, hq, rfl⟩ := pixelBytes_in_row hx ha
  exact ⟨by omega, by rw [Nat.succ_mul]; omega, pixelBytes_inside hx hy ha⟩

/-! ### Multi-byte accesses -/

/-- `MemWrite` inside VRAM completes, and byte `k` of the access then holds byte `n - 1 - k` of the value. -/
theorem memWrite_inside {p : Params} {m : Memory} {a n : Nat} (v : BitVec (8 * n)) (hm : Memory.wf m)
    (h : a + n ≤ Params.vramSize p) :
    ∃ m', memWrite p m a n v = .ok m' ∧ ∀ k < n, Memory.read m' (a + k) = v.extractLsb' (8 * (n - k - 1)) 8 := by
  induction n with
  | zero => exact ⟨m, rfl, nofun⟩
  | succ n ih =>
    obtain ⟨m1, hwrite, hbytes⟩ := ih (v.extractLsb' 8 (8 * n)) (by omega)
    obtain ⟨hm1, -, -⟩ := memWrite_ok hwrite hm
    refine ⟨Memory.write m1 (a + n) (v.extractLsb' 0 8), ?_, fun k hk => ?_⟩
    · rw [memWrite, hwrite, bind_ok, writeByte_inside (by omega)]
    · rw [Memory.read_write hm1]
      obtain rfl | hlt := Nat.eq_or_lt_of_le (Nat.le_of_lt_succ hk)
      · simp
      · have hplace : n + 1 - k - 1 = n - k - 1 + 1 := by omega
        rw [if_neg (by omega), hbytes k hlt, extractLsb'_above_lowest_byte (by omega), hplace]

/-- `MemRead` of bytes that hold a value's bytes, the most significant first, gives the value. -/
theorem memRead_inside {p : Params} {m : Memory} {a n : Nat} (v : BitVec (8 * n)) (h : a + n ≤ Params.vramSize p)
    (hbytes : ∀ k < n, Memory.read m (a + k) = v.extractLsb' (8 * (n - k - 1)) 8) : memRead p m a n = .ok v := by
  induction n with
  | zero => rw [BitVec.of_length_zero (x := v)]; rfl
  | succ n ih =>
    have hhigh : memRead p m a n = .ok (v.extractLsb' 8 (8 * n)) := by
      refine ih _ (by omega) fun k hk => ?_
      have hplace : n + 1 - k - 1 = n - k - 1 + 1 := by omega
      rw [hbytes k (by omega), extractLsb'_above_lowest_byte (by omega), hplace]
    have hlow : Memory.read m (a + n) = v.extractLsb' 0 8 := by simpa using hbytes n (by omega)
    rw [memRead, hhigh, bind_ok, readByte_inside (by omega), bind_ok, hlow, BitVec.extractLsb'_append_extractLsb']

/-- Settles O31: the bytes that MemWrite leaves (`memWrite_inside`) are those that MemRead puts together (`memRead_inside`), and
no others change (`memWrite_ok`). -/
theorem memReadInvertsMemWrite : Obligations.MemReadInvertsMemWrite := by
  intro p m a n v hm h
  obtain ⟨m', hwrite, hbytes⟩ := memWrite_inside v hm h
  obtain ⟨-, -, hframe⟩ := memWrite_ok hwrite hm
  exact ⟨m', hwrite, memRead_inside v h hbytes, hbytes, hframe⟩

end Sys2Proof.Machine
end

section
/-! One step of the port: each event, that every step keeps the invariant and goes on, and that it marks what it changes
(spec/70_reset_and_hazards.md R161, R164, spec/10_state.md R23, R30, R31). -/

namespace Sys2Proof.Machine

/-! ### The events of the port -/

/-- Settles O10: the first thing a step checks. -/
theorem illegalInstanceAcceptsNothing : Obligations.IllegalInstanceAcceptsNothing :=
  fun _ h => if_neg h

/-- A ready port without an offer idles (R161). -/
theorem step_idles {s : State} (hl : Params.legal s.params) (hp : s.pinsNow.rst = false) (hr : s.rsp = none)
    (ho : s.offered = []) : step s = .next s.tick := by
  unfold step State.portEvent
  rw [if_pos hl]
  simp [hp, hr, ho]

/-- With legal parameters the reset input leaves the power-on state with the same commands offered (R150, R161). -/
theorem portReset_eq_powerOn {s : State} (hl : Params.legal s.params) :
    s.portReset = ((State.powerOn s.params).withOffered s.offered).withPins s.pins :=
  State.same rfl rfl (resetSequence_dirty hl) rfl rfl rfl

/-- Settles O13: the step is the reset (`step_resets`), which leaves the power-on state (`portReset_eq_powerOn`). -/
theorem resetInputComesFirst : Obligations.ResetInputComesFirst := by
  intro s hl hp
  rw [step_resets hl hp, portReset_eq_powerOn (s := s.tick) hl]
  rfl

/-- The state in which the command offered first is performed. -/
theorem accept_tick {s : State} {w : CmdWord} {ws : List CmdWord} (ho : s.offered = w :: ws) :
    s.tick.accept = (s.withOffered ws).withPins s.pins.tail := by
  rw [State.accept, State.tick_offered, ho]
  rfl

/-- Settles O16: the step performs the command (`step_accepts`) in the state that `accept_tick` writes out. -/
theorem stepPerformsTheAcceptedCommand : Obligations.StepPerformsTheAcceptedCommand := by
  intro s w ws hl hp hr ho
  rw [step_accepts hl hp hr ho, accept_tick ho]

/-- Settles O17: a response waits or is taken (`step_responds`), and without one and without an offer the port idles
(`step_idles`). -/
theorem responseHoldsThePort : Obligations.ResponseHoldsThePort := by
  intro s hl hp
  refine ⟨fun r hr hready => ?_, fun r hr hready => ?_, step_idles hl hp⟩
  case refine_1 | refine_2 => rw [step_responds hl hp hr, hready]; rfl

/-! ### The invariant -/

/-- Settles O43: VRAM is zeroed and the dirty register is the whole viewport (`stateInv_zeroed`). -/
theorem powerOnMeetsTheInvariant : Obligations.PowerOnMeetsTheInvariant := by
  have powerOn : ∀ p : Params, Params.legal p → StateInv (State.powerOn p) :=
    fun p hl => stateInv_zeroed hl rfl (dirtyLegal_fullViewport hl)
  exact ⟨powerOn, powerOn Params.example256x64 (by decide)⟩

theorem StateInv.tick {s : State} (hs : StateInv s) : StateInv s.tick :=
  hs.of_same_vram rfl rfl hs.dirty

theorem StateInv.accept {s : State} (hs : StateInv s) : StateInv s.accept :=
  hs.of_same_vram rfl rfl hs.dirty

theorem StateInv.takeResponse {s : State} (hs : StateInv s) : StateInv s.takeResponse :=
  hs.of_same_vram rfl rfl hs.dirty

theorem StateInv.withOffered {s : State} (hs : StateInv s) (ws : List CmdWord) : StateInv (s.withOffered ws) :=
  hs.of_same_vram rfl rfl hs.dirty

theorem StateInv.portReset {s : State} (hs : StateInv s) : StateInv s.portReset :=
  stateInv_zeroed hs.legal rfl (dirtyLegal_markDirty hs.legal (dirtyLegal_empty _) _ _ _ _)

/-- Settles O44, by the ways a step can go on (`step_cases`); a performed command keeps the invariant
(`Effect.keeps_stateInv`). -/
theorem everyStepKeepsTheInvariant : Obligations.EveryStepKeepsTheInvariant := by
  intro s t hs h
  obtain ⟨-, ⟨-, rfl⟩ | ⟨-, ⟨r, -, rfl⟩ | ⟨-, -, rfl⟩ | ⟨-, w, ws, -, hexec⟩⟩⟩ := step_cases h
  case inl => exact hs.tick.portReset
  case inr.inl =>
    split
    · exact hs.tick.takeResponse
    · exact hs.tick
  case inr.inr.inl => exact hs.tick
  case inr.inr.inr =>
    have hs' := hs.tick.accept
    exact (exec_next hs'.legal hs'.wf hexec).keeps_stateInv hs'

/-- In a state of the invariant every command completes, and its response stands on the port. -/
theorem StateInv.exec_responds {s : State} (hs : StateInv s) (i : Instr) :
    ∃ t r, exec i s = .next t ∧ Effect s i t ∧ t.rsp = some r := by
  obtain ⟨t, hexec, eff⟩ := exec_effect i hs.legal hs.wf
  obtain ⟨-, -, -, hrsp⟩ := eff.keeps
  obtain ⟨r, hr⟩ := Option.isSome_iff_exists.mp hrsp
  exact ⟨t, r, hexec, eff, hr⟩

/-- In a state of the invariant every step goes on, whatever the port's event. -/
theorem StateInv.step_goes_on {s : State} (hs : StateInv s) : ∃ t, step s = .next t := by
  cases hp : s.pinsNow.rst with
  | true => exact ⟨_, step_resets hs.legal hp⟩
  | false =>
    cases hr : s.rsp with
    | some r => exact ⟨_, step_responds hs.legal hp hr⟩
    | none =>
      cases ho : s.offered with
      | nil => exact ⟨_, step_idles hs.legal hp hr ho⟩
      | cons w ws =>
        obtain ⟨t, -, hexec, -, -⟩ := hs.tick.accept.exec_responds (decode w)
        exact ⟨t, (step_accepts hs.legal hp hr ho).trans hexec⟩

/-- Settles O45: every command completes with its response (`StateInv.exec_responds`), and so every event of the port has a
next state (`StateInv.step_goes_on`). -/
theorem everyCommandResponds : Obligations.EveryCommandResponds := by
  refine fun s hs => ⟨fun i => ?_, hs.step_goes_on⟩
  obtain ⟨t, r, hexec, -, hr⟩ := hs.exec_responds i
  exact ⟨t, r, hexec, hr⟩

/-! ### Changed pixels -/

/-- Zeroing VRAM changes no pixel outside the viewport, where all pixels are 0 already (R30). -/
theorem StateInv.readPixel_zeroFill_outside {s : State} (hs : StateInv s) {px py : Int} (hp : inPlane s.params px py)
    (hv : ¬ inViewport s.params px py) : readPixel s.params zeroFill px py = readPixel s.params s.vram px py := by
  rw [readPixel_zeroFill hp, hs.readPixel_outside_viewport hp hv]

/-- A pixel that a command does not write reads as before. -/
theorem Effect.readPixel_of_not_writesPixel {i : Instr} {s t : State} {px py : Int} (h : Effect s i t)
    (hs : StateInv s) (hp : inPlane s.params px py) (hw : ¬ writesPixel s.params i px py) :
    readPixel s.params t.vram px py = readPixel s.params s.vram px py := by
  cases h with
  | answers | marks | clears => rfl
  | @draws _ m x0 y0 x1 y1 value h0 h1 hx hy written filled =>
    rw [written] at hw
    obtain ⟨hx0, -, hy0, -⟩ := h0
    have ⟨hpx, _, hpy, _⟩ := hp
    exact (filled.readPixel hp).trans (if_neg (by omega))
  | resets => exact hs.readPixel_zeroFill_outside hp hw

/-- Settles O36, by the ways a step can go on (`step_cases`): the reset input changes only pixels of the viewport, all of which
it marks, a command only pixels that it writes (`Effect.readPixel_of_not_writesPixel`), which lie in the region after it
(`Effect.written_dirty`), and the other events none. -/
theorem changedPixelsAreDirty : Obligations.ChangedPixelsAreDirty := by
  intro s t px py hs h hp hne
  obtain ⟨-, ⟨-, rfl⟩ | ⟨-, ⟨r, -, rfl⟩ | ⟨-, -, rfl⟩ | ⟨-, w, ws, -, hexec⟩⟩⟩ := step_cases h
  case inl =>
    obtain ⟨r, hr, hall⟩ := resetSequence_dirty_viewport (s := s.tick) hs.legal
    exact ⟨r, hr, hall px py (not_not.mp fun hv => hne (hs.readPixel_zeroFill_outside hp hv))⟩
  case inr.inl =>
    refine absurd ?_ hne
    split <;> rfl
  case inr.inr.inl => exact absurd rfl hne
  case inr.inr.inr =>
    have hs' := hs.tick.accept
    have eff := exec_next hs'.legal hs'.wf hexec
    exact eff.written_dirty hs' (not_not.mp fun hw => hne (eff.readPixel_of_not_writesPixel hs' hp hw))

end Sys2Proof.Machine
end

section
/-! A stream of commands through the port, for a host that takes each response at once (spec/70_reset_and_hazards.md R160,
R162). -/

namespace Sys2Proof.Machine

/-! ### Two steps for one command -/

theorem pinsNow_of_pins_nil {s : State} (h : s.pins = []) : s.pinsNow = Pins.atRest := by
  rw [State.pinsNow, h]
  rfl

theorem tick_of_pins_nil {s : State} (h : s.pins = []) : s.tick = s :=
  State.same rfl rfl rfl rfl rfl (by rw [State.tick_pins, h, List.tail_nil])

theorem portEvent_ne_responseTaken {s : State} (hr : s.rsp = none) : s.portEvent ≠ .responseTaken := by
  unfold State.portEvent
  split
  · nofun
  · rw [hr]
    cases s.offered <;> nofun

theorem portEvent_responseTaken {s : State} {r : Response} (hp : s.pins = []) (hr : s.rsp = some r) :
    s.portEvent = .responseTaken := by
  simp [State.portEvent, pinsNow_of_pins_nil hp, Pins.atRest, hr]

/-- From an idle port of a state of the invariant, the offer of `w` with `ws` after it takes two steps: the one leaves what
performing the command leaves, with `ws` offered, and the other takes its response `r`. -/
structure Served (s : State) (w : CmdWord) (ws : List CmdWord) (t : State) (r : Response) : Prop where
  exec_eq : exec (decode w) (s.withOffered []) = .next t
  rsp : t.rsp = some r
  inv : StateInv t
  pins : t.pins = []
  offered : t.offered = []
  first : step s = .next (t.withOffered ws)
  second : step (t.withOffered ws) = .next (t.takeResponse.withOffered ws)

theorem served {s : State} {w : CmdWord} {ws : List CmdWord} (hs : StateInv s) (hr : s.rsp = none) (hp : s.pins = [])
    (ho : s.offered = w :: ws) : ∃ t r, Served s w ws t r := by
  have hs' := hs.withOffered []
  obtain ⟨t, r, hexec, eff, hrsp⟩ := hs'.exec_responds (decode w)
  obtain ⟨-, hoffered, hkept, -⟩ := eff.keeps
  have hpins : t.pins = [] := hkept.trans hp
  have ht := eff.keeps_stateInv hs'
  refine ⟨t, r, hexec, hrsp, ht, hpins, hoffered, ?_, ?_⟩
  · have hstart : s.tick.accept = (s.withOffered []).withOffered ws := by rw [tick_of_pins_nil hp, State.accept, ho]; rfl
    rw [step_accepts hs.legal (by rw [pinsNow_of_pins_nil hp]; rfl) hr ho, hstart, exec_withOffered, hexec]
    rfl
  · have hnow : (t.withOffered ws).pinsNow = Pins.atRest := pinsNow_of_pins_nil hpins
    rw [step_responds (s := t.withOffered ws) ht.legal (by rw [hnow]; rfl) hrsp, hnow,
      tick_of_pins_nil (s := t.withOffered ws) hpins]
    rfl

section

variable {s t : State} {w : CmdWord} {ws : List CmdWord} {r : Response}

theorem Served.runSteps_add_two (h : Served s w ws t r) (n : Nat) :
    runSteps (n + 2) s = runSteps n (t.takeResponse.withOffered ws) := by
  simp only [runSteps, h.first, h.second]

theorem Served.takenResponses_add_two (h : Served s w ws t r) (hr : s.rsp = none) (n : Nat) :
    takenResponses (n + 2) s = r :: takenResponses n (t.takeResponse.withOffered ws) := by
  have htaken : (t.withOffered ws).portEvent = .responseTaken := portEvent_responseTaken h.pins h.rsp
  simp only [takenResponses, h.first, h.second, if_neg (portEvent_ne_responseTaken hr), if_pos htaken,
    State.withOffered_rsp, h.rsp]
  rfl

theorem Served.performAll_cons (h : Served s w ws t r) {is : List Instr} {u : State} {rs : List Response}
    (hrest : performAll is t.takeResponse = some (u, rs)) :
    performAll (decode w :: is) (s.withOffered []) = some (u, r :: rs) := by
  simp only [performAll, h.exec_eq, h.rsp, hrest]

/-- With nothing offered, the state after both steps is the performed command's with its response taken. -/
theorem Served.withOffered_nil (h : Served s w ws t r) :
    (t.takeResponse.withOffered ws).withOffered [] = t.takeResponse :=
  State.same rfl rfl rfl rfl h.offered.symm rfl

end

/-- Settles O18, by induction on the words offered: two steps serve the first (`served`), and they leave an idle port with the
others offered. -/
theorem streamIsServedInOrder : Obligations.StreamIsServedInOrder := by
  intro ws
  induction ws with
  | nil =>
    intro s hs hr hp ho
    have hnil : s.withOffered [] = s := State.same rfl rfl rfl rfl ho.symm rfl
    exact ⟨s, [], by rw [hnil]; rfl, rfl, rfl, rfl⟩
  | cons w ws ih =>
    intro s hs hr hp ho
    obtain ⟨t, r, h⟩ := served hs hr hp ho
    obtain ⟨u, rs, hperform, hrun, htaken, hlength⟩ :=
      ih (t.takeResponse.withOffered ws) (h.inv.takeResponse.withOffered ws) rfl h.pins rfl
    rw [h.withOffered_nil] at hperform
    refine ⟨u, r :: rs, h.performAll_cons hperform, ?_, ?_, ?_⟩
    · rw [List.length_cons, Nat.mul_succ, h.runSteps_add_two, hrun]
    · rw [List.length_cons, Nat.mul_succ, h.takenResponses_add_two hr, htaken]
    · rw [List.length_cons, List.length_cons, hlength]

/-! ### A write and a read of one pixel -/

/-- After SETPX of a viewport pixel the pixel reads as the truncated value. -/
theorem readPixel_of_exec_setpx {s t : State} {x y v : Word} (hs : StateInv s)
    (h : inViewport s.params (coord x) (coord y)) (hexec : exec (.setpx x y v) s = .next t) :
    readPixel t.params t.vram (coord x) (coord y) = .ok (trunc s.params.format v) := by
  obtain ⟨m, hexec', filled⟩ := exec_setpx_inside (value := v) hs.legal hs.wf h
  cases hexec.symm.trans hexec'
  exact (filled.readPixel (inPlane_of_inViewport hs.legal h)).trans (if_pos (by omega))

/-- Settles O19: two steps serve the SETPX (`served`), after which the pixel reads as the value (`readPixel_of_exec_setpx`), and
the third step performs the GETPX. -/
theorem setThenGetThroughThePort : Obligations.SetThenGetThroughThePort := by
  intro s x y v hs hv hr hp ho
  obtain ⟨t, r, h⟩ := served hs hr hp ho
  have hset := h.exec_eq
  rw [decode_encode rfl] at hset
  have hread := readPixel_of_exec_setpx (hs.withOffered []) hv hset
  obtain ⟨t', r', h'⟩ := served (s := t.takeResponse.withOffered [encode (.getpx x y)])
    (h.inv.takeResponse.withOffered _) rfl h.pins rfl
  have hget := h'.exec_eq
  rw [decode_encode rfl] at hget
  have ht' := Host.Outcome.next.inj (hget.symm.trans (exec_getpx_of_readPixel hread))
  refine ⟨t'.withOffered [], (h.runSteps_add_two 1).trans ?_, ?_⟩
  · simp only [runSteps, h'.first]
  · rw [State.withOffered_rsp, ht']
    rfl

end Sys2Proof.Machine
end
